-- ==== Sys2Proof/Word.lean ====
section
/-! DEFINITION. The machine's word types: the byte of a memory cell and the address held in an instruction field.

All values are unsigned (spec/00_scope.md R6). A stored address (an instruction field, PCVEC, the pc) has 24 bits; a
COMPUTED address (`pc + 8`, `pageBase + i`) is an unbounded natural number and never wraps (R6, spec/20_memory.md R34), so
computed addresses are `Nat` throughout the model. -/

namespace Sys2Proof

/-- One memory cell's value: "unsigned 8-bit value" (R4 `BYTE_BITS`, R10). -/
abbrev Byte := BitVec 8

/-- A stored 24-bit address: a field of COPY, PCVEC, the pc (R4 `ADDR_BITS`, R13, R51). -/
abbrev Addr := BitVec 24

/-- The 16-bit key bitmask of STEP_FRAME (R16, R85). -/
abbrev KeyMask := BitVec 16

end Sys2Proof
end

