-- ==== Sys2Proof/Config.lean ====
section
/-! DEFINITION. What an implementation fixes: the constants of spec/00_scope.md R4, each under a name of its own; the one open
parameter CAPACITY (R5) as a type of its two admitted values; and the model's one free value.

UNVERIFIED: the literals are the spec's, which says that nobody audited them against the repository's code
(spec/91_not_in_source.md N20; log entry 19). -/

namespace Sys2Proof.Config

/-- Bytes in one instruction record (R4 `INSTR_BYTES`). -/
abbrev instrBytes : Nat := 9

/-- Bytes in an address field and in PCVEC (R4 `ADDR_BYTES`). -/
abbrev addrBytes : Nat := 3

/-- Address of the high key byte; the low one follows it (R4 `KEYS_OFFSET`). -/
abbrev keysOffset : Nat := 0

/-- Address of the three bytes of PCVEC (R4 `PCVEC_OFFSET`). -/
abbrev pcVecOffset : Nat := 2

/-- Address of the page selector (R4 `PAGESEL_OFFSET`). -/
abbrev pageSelOffset : Nat := 5

/-- COPY executions in one STEP_FRAME (R4 `STEPS_PER_FRAME`, R86). -/
abbrev stepsPerFrame : Nat := 65536

/-- Bytes in a framebuffer page (R4 `PAGE_BYTES`). -/
abbrev pageBytes : Nat := 65536

/-- `pageBase = pageSelector << 16` (R4 `PAGE_SHIFT`). -/
abbrev pageShift : Nat := 16

/-- Pixels in a row (R4 `FB_WIDTH`). -/
abbrev fbWidth : Nat := 256

/-- Rows of pixels (R4 `FB_HEIGHT`). -/
abbrev fbHeight : Nat := 256

/-- Palette indices below this are colours, the others black (R4 `PALETTE_COLOURS`). -/
abbrev paletteColours : Nat := 216

/-- The radix of the palette's digits (R4 `PALETTE_RADIX`). -/
abbrev paletteRadix : Nat := 6

/-- The multiplier of each palette digit (R4 `PALETTE_SCALE`). -/
abbrev paletteScale : Nat := 51

/-- Logical keys, one bit each of the key bitmask (R4 `KEY_COUNT`). -/
abbrev keyCount : Nat := 16

/-- The parameter CAPACITY, "with exactly two admitted values" (R5, decision D1). It stands in State as plain data that no
step changes, so a statement for every state is a statement for both values (DESIGN CHOICE, log entry 1). -/
inductive Capacity where
  /-- 0xFFFFFF bytes: address 0xFFFFFF is out of range. -/
  | short
  /-- 0x1000000 bytes: address 0xFFFFFF is the last valid byte. -/
  | full
deriving DecidableEq, Repr

/-- The number of bytes in the Memory Image (R5). -/
def Capacity.bytes : Capacity → Nat
  | .short => 0xFFFFFF
  | .full => 0x1000000

/-- FREE VALUE: what a byte of `M` holds after RomTooLarge, "unspecified" (spec/40_rom_loader.md R66, decision D7, U3 `any
value`). The first argument is the number of the draw (`State.draws`), the second the address. It has no body: nothing in the
model and no proof knows a value of it (log entry 8). -/
opaque freeByte : Nat → Nat → Byte

end Sys2Proof.Config
end

