-- ==== Sys2Proof/Syntax.lean ====
section
/-! DEFINITION. The syntax of the instruction set: the one instruction of spec/opcode_table.json. The four host commands have no
bit encoding and are no instructions (spec/30_encoding.md R57); they are `Sys2Proof.Machine.Command`. -/

namespace Sys2Proof

/-- The instructions, one constructor per row of the opcode table. -/
inductive Instr where
  /-- `COPY S, T, N` (spec/41_copy_instruction.md R70): `S` the source address, `T` the target address, `N` the next program
  counter AS THE RECORD HELD IT WHEN IT WAS DECODED. The meaning fetches the next field again after its write, as R52 and R70
  sub-step d say (log entry 13). -/
  | copy (S T N : Addr)
deriving DecidableEq, Repr

end Sys2Proof
end

