-- ==== Sys2Proof/WellFormed.lean ====
section
/-! DEFINITION. Which instructions and which records of bytes are well formed.

No encoding is illegal or reserved (spec/30_encoding.md R53) and the fields' widths are in their type, so every instruction is
well formed. A record of bytes is one instruction exactly when it has nine bytes (R50, R55). -/

namespace Sys2Proof

/-- Every COPY is well formed: "every one of the 2^72 bit patterns is the instruction COPY with those operands" (R53). -/
def Instr.wellFormed : Instr → Bool
  | .copy _ _ _ => true

/-- "Every instruction is 9 bytes long" (R50): the one check there is on a record. -/
def recordWellFormed (bytes : List Byte) : Bool :=
  bytes.length == Config.instrBytes

end Sys2Proof
end

