-- ==== Sys2Proof/Decode.lean ====
section
/-! DEFINITION. Byte order, the decoder and the encoder of format C (spec/30_encoding.md R50 to R55), and the opcode table's view of
an instruction as one number (spec/00_scope.md R8). The byte order of the whole machine is decided here, once: `foldBytes`. -/

namespace Sys2Proof

/-- The big-endian fold of the address resolver, `result = (result << 8) | byte` over the bytes in ascending address order,
from 0 (spec/20_memory.md R33, R35). -/
def foldBytes (bytes : List Byte) : Nat :=
  bytes.foldl (fun result b => (result <<< 8) ||| b.toNat) 0

/-- A 24-bit field assembled from its three bytes, the most significant first (R52). -/
def addrOfBytes (b0 b1 b2 : Byte) : Addr :=
  BitVec.ofNat 24 (foldBytes [b0, b1, b2])

/-- The three bytes of a 24-bit field, in ascending address order: `a[23:16]`, `a[15:8]`, `a[7:0]` (R51). -/
def bytesOfAddr (a : Addr) : List Byte :=
  [a.extractLsb' 16 8, a.extractLsb' 8 8, a.extractLsb' 0 8]

/-- Why a list of bytes is no instruction. -/
inductive DecodeError where
  /-- Fewer than nine bytes were given. No other list is refused: no encoding is illegal (R53). -/
  | truncated
deriving DecidableEq, Repr

/-- The decoder, total on every list of bytes: the instruction its first nine bytes are and the bytes after them (R50, R52).
It looks at no byte to find the length (R55). -/
def decode : List Byte → Except DecodeError (Instr × List Byte)
  | s0 :: s1 :: s2 :: t0 :: t1 :: t2 :: n0 :: n1 :: n2 :: rest =>
      .ok (.copy (addrOfBytes s0 s1 s2) (addrOfBytes t0 t1 t2) (addrOfBytes n0 n1 n2), rest)
  | _ => .error .truncated

/-- The encoder, written from the table of R51: the nine bytes of an instruction in ascending address order. -/
def encode : Instr → List Byte
  | .copy S T N => bytesOfAddr S ++ bytesOfAddr T ++ bytesOfAddr N

/-- The nine bytes of the 72-bit value `I = MemRead(pc, 9)`: "the byte at pc holds I[71:64] and the byte at pc + 8 holds
I[7:0]" (R8). The record is ONE word of 72 bits, stored big-endian, and bit 0 is its least significant bit
(spec/opcode_table.json; DEDUCED, log entry 16). -/
def recordOfWord (I : BitVec 72) : List Byte :=
  [I.extractLsb' 64 8, I.extractLsb' 56 8, I.extractLsb' 48 8,
   I.extractLsb' 40 8, I.extractLsb' 32 8, I.extractLsb' 24 8,
   I.extractLsb' 16 8, I.extractLsb' 8 8, I.extractLsb' 0 8]

/-- The nine bytes an instruction whose low `nbits` bits are those of `w`, and whose other bits are 0, has in memory. -/
def recordOfTableWord (nbits w : Nat) : List Byte :=
  recordOfWord (BitVec.ofNat 72 (w % 2 ^ nbits))

/-- The instruction the decoder reads from a record whose bits are `w`, numbered as spec/opcode_table.json numbers them. -/
def decodeTableWord (nbits w : Nat) : Option Instr :=
  match decode (recordOfTableWord nbits w) with
  | .ok (i, _) => some i
  | .error _ => none

end Sys2Proof
end

