-- ==== Sys2Proof/Machine/State.lean ====
section
/-! DEFINITION. The state of the machine as plain data, its reasons to stop, and the state right after RESET.

The spec's persistent state is the Memory Image `M` and the block status (spec/10_state.md R11, R20); inside a STEP_FRAME
there are the transient pc and iteration counter (R13, R14). KEYS, PCVEC and PAGESEL are cells of `M` (R16 to R19). One step
of the model is one COPY, one accepted host command, or nothing (log entry 2), so the host's commands and the result of the
last one stand in State as well (log entries 3 and 4). -/

namespace Sys2Proof.Machine

/-- The error kinds, "a closed enumeration with the two constructors" (spec/60_exceptions.md R115). They are what a command's
`Err` result holds; the wrapper EngineError is flattened away (R118) and an error has no payload (R119).

NO STEP ENDS IN `Host.Outcome.fault`: the spec describes what a fault does (R122: the command ends, its writes stay, the
status becomes FAULTED, the host gets `Err`), so a fault is a NEXT state, made by `State.raise` of Machine/Ops.lean. -/
inductive Fault where
  /-- AddressOutOfRange, raised by COPY at its sub-steps a, b, c1 and d and by DECODE_FRAME at its page check (R116). Safe: the
  spec names the fault. -/
  | addressOutOfRange
  /-- RomTooLarge, raised by LOAD_ROM for an image of more than CAPACITY bytes and by nothing else (R117). Safe: the spec names
  the fault. -/
  | romTooLarge
deriving DecidableEq, Repr

/-- Why the model gives something no meaning. -/
inductive Refusal where
  /-- An instruction without a meaning yet; no arm of exec answers with it. Safe. -/
  | notModelled (mnemonic : String)
  /-- Raised by the acceptance of any command but RESET before the first RESET: "this spec gives no meaning to any command
  before it" (R135, U6). Safe: the model stops. -/
  | commandBeforeReset
  /-- Raised by the acceptance of any command but RESET in FAULTED: "refused by the model" (R124, decision D5). Safe: the model
  stops. -/
  | commandInFaulted
  /-- Raised by the acceptance of a second LOAD_ROM or of a LOAD_ROM after a frame command: "refused by this spec" (R67, R137,
  decision D6). Safe: the model stops. -/
  | romLoadClosed
  /-- Raised by exec (never by step) when a COPY is asked for outside a STEP_FRAME, where no pc exists (R13, R130). Safe: the
  model stops. -/
  | copyOutsideFrame
deriving DecidableEq, Repr

/-- The Memory Image: the listed cells, any other address below CAPACITY reading 0x00 (R10, R24). The canonical form is
`Memory.wf` of Machine/Ops.lean. -/
abbrev Memory := List Host.Cell

/-- The block status (R20). -/
inductive Status where
  | running
  | faulted
deriving DecidableEq, Repr

/-- How far the host has come in the command grammar `RESET [LOAD_ROM] { STEP_FRAME | DECODE_FRAME }*` of R137: the model's
own field, for the orders that R135, R67 and R137 refuse (log entry 7). -/
inductive Stage where
  /-- No RESET yet: the machine does not exist (R135). -/
  | beforeReset
  /-- RESET was the last command: one LOAD_ROM may still come. -/
  | awaitingRom
  /-- A LOAD_ROM or a frame command has come: no LOAD_ROM any more. -/
  | romClosed
deriving DecidableEq, Repr

/-- The transient state of a running STEP_FRAME (R13, R14): it exists only while the command runs. -/
structure Frame where
  /-- The address of the first byte of the COPY to execute next (R13). -/
  pc : Addr
  /-- The iteration counter `i`, 0 to 65535 (R14, R86): how many COPYs of this frame have completed. -/
  iter : Fin Config.stepsPerFrame
deriving DecidableEq, Repr

/-- The host commands (spec/30_encoding.md R57). -/
inductive Command where
  | reset
  | loadRom (rom : List Byte)
  | stepFrame (keys : KeyMask)
  | decodeFrame
deriving DecidableEq, Repr

/-- One pixel: "A triple (red, green, blue) of 8-bit unsigned values", no alpha, no packing (spec/44_display_decoder.md R106). -/
structure Pixel where
  red : Byte
  green : Byte
  blue : Byte
deriving DecidableEq, Repr

/-- The result a command gives the host (R57). RESET has none. -/
inductive CommandResult where
  /-- LOAD_ROM: `Ok(len)` (R65). -/
  | romLoaded (len : Nat)
  /-- STEP_FRAME: `Ok(())` (R85). -/
  | frameDone
  /-- DECODE_FRAME: `Ok(P)`, `P[i]` the pixel of linear index `i` (R100, R104). -/
  | pixelBuffer (P : List Pixel)
  /-- `Err(e)` (R122). -/
  | failed (e : Fault)
deriving DecidableEq, Repr

/-- The state of the machine and of what the host has asked of it. -/
structure State where
  /-- The parameter CAPACITY (R5); no step changes it. -/
  capacity : Config.Capacity
  /-- The Memory Image `M` (R10). -/
  mem : Memory
  /-- The block status (R20). -/
  status : Status
  /-- The place in the command grammar (R137); the model's own. -/
  stage : Stage
  /-- The running STEP_FRAME, if one runs (R13, R14). -/
  frame : Option Frame
  /-- The commands the host has still to issue, the next first (R57); the model's own. -/
  pending : List Command
  /-- The result of the last command completed since RESET; none while a STEP_FRAME runs (R57). A value given to the host: no
  rule of the machine reads it (R21). -/
  result : Option CommandResult
  /-- How many free values have been drawn (log entry 8); the model's own. -/
  draws : Nat
deriving DecidableEq, Repr

/-- The number of bytes of the Memory Image (R5). -/
abbrev State.cap (s : State) : Nat := s.capacity.bytes

/-- The machine right after RESET, for either value of CAPACITY: every cell of `M` 0x00, status RUNNING, no pc, no result (R24,
R135). -/
def State.resetWith (c : Config.Capacity) : State where
  capacity := c
  mem := []
  status := .running
  stage := .awaitingRom
  frame := none
  pending := []
  result := none
  draws := 0

/-- The machine right after RESET at CAPACITY = 0xFFFFFF, the value decision D1 names "if a single value must be taken" (DESIGN
CHOICE, log entry 1). -/
def State.reset : State := State.resetWith .short

/-- What stands there before the first RESET: no machine yet, only the host (R135, U6; log entry 18). -/
def State.uncreated (c : Config.Capacity) : State :=
  { State.resetWith c with stage := .beforeReset }

end Sys2Proof.Machine
end

