-- ==== Sys2Proof/Machine/Flags.lean ====
section
/-! DEFINITION. The conditions the machine computes. THERE ARE NO FLAGS: "There are no flags, condition codes or predicates"
(spec/10_state.md R15). The one condition that any rule tests is the bounds check of an address against CAPACITY. -/

namespace Sys2Proof.Machine

/-- "In range: an address a with a < CAPACITY" (spec/00_scope.md section 7; spec/41_copy_instruction.md R77: an unsigned comparison of
unbounded integers). -/
abbrev State.inRange (s : State) (a : Nat) : Prop := a < s.cap

end Sys2Proof.Machine
end

