-- ==== Sys2Proof/Machine/Ops.lean ====
section
/-! DEFINITION. The named operations over memory and over the command in progress: the cells of `M` in canonical form, the
primitives `MemRead` and `MemWrite` of spec/20_memory.md R31 to R33, the guarded target write of R73, and what a fault does
(spec/60_exceptions.md R122), as ONE shared operation. -/

namespace Sys2Proof.Machine

/-- `M[a]`: an address that is not listed reads 0x00, its value after RESET (R24; log entry 12). -/
def Memory.read : Memory → Nat → Byte
  | [], _ => 0
  | (k, v) :: rest, a => if k = a then v else Memory.read rest a

/-- The memory without an entry for `a`, so that `a` reads 0x00. -/
def Memory.clear : Memory → Nat → Memory
  | [], _ => []
  | (k, v) :: rest, a => if k = a then Memory.clear rest a else (k, v) :: Memory.clear rest a

/-- The memory with an entry for `a`, in its place by address. -/
def Memory.put : Memory → Nat → Byte → Memory
  | [], a, v => [(a, v)]
  | (k, w) :: rest, a, v =>
      if a < k then (a, v) :: (k, w) :: rest
      else if a = k then (a, v) :: rest
      else (k, w) :: Memory.put rest a v

/-- `M[a] <- v` in canonical form: no entry for a cell that holds 0x00. -/
def Memory.write (m : Memory) (a : Nat) (v : Byte) : Memory :=
  if v = 0 then Memory.clear m a else Memory.put m a v

/-- Bytes stored at consecutive addresses from `a` on, in ascending order. -/
def Memory.writeBytes : Memory → Nat → List Byte → Memory
  | m, _, [] => m
  | m, a, b :: rest => Memory.writeBytes (Memory.write m a b) (a + 1) rest

/-- The canonical memory of `n` cells whose cell `a` holds `f a`. -/
def Memory.ofFn (n : Nat) (f : Nat → Byte) : Memory :=
  (List.range n).filterMap fun a => if f a = 0 then none else some (a, f a)

/-- The canonical form: addresses strictly rising and no listed byte 0x00. -/
def Memory.wf : Memory → Bool
  | [] => true
  | (k, v) :: rest => (v != 0) && rest.all (fun c => decide (k < c.1)) && Memory.wf rest

/-- Every listed address is below `n`: the Memory Image has `n` cells (R10). -/
def Memory.below (m : Memory) (n : Nat) : Bool :=
  m.all fun c => decide (c.1 < n)

/-- `MemRead(addr, 1)`: out of range it raises AddressOutOfRange, else it is `M[addr]`; it changes nothing (R31, R38). -/
def State.readByte (s : State) (a : Nat) : Except Fault Byte :=
  if s.inRange a then .ok (s.mem.read a) else .error .addressOutOfRange

/-- The bytes at `a` to `a + n - 1`, each bounds-checked, in ascending order (R33). -/
def State.readBytes (s : State) : Nat → Nat → Except Fault (List Byte)
  | _, 0 => .ok []
  | a, n + 1 =>
    match s.readByte a with
    | .error e => .error e
    | .ok b =>
      match State.readBytes s (a + 1) n with
      | .error e => .error e
      | .ok bs => .ok (b :: bs)

/-- `MemRead(offset, n)`: the unsigned big-endian value of the `n` bytes at `offset`, raising AddressOutOfRange if one of them
is out of range (R33). The sum `offset + k` never wraps (R34). -/
def State.memRead (s : State) (offset n : Nat) : Except Fault Nat :=
  match s.readBytes offset n with
  | .error e => .error e
  | .ok bs => .ok (foldBytes bs)

/-- `MemWrite(addr, 1, v)`: out of range it raises and `M` is unchanged, else `M[addr] <- v` and no other cell changes (R32). -/
def State.memWrite (s : State) (a : Nat) (v : Byte) : Except Fault State :=
  if s.inRange a then .ok { s with mem := s.mem.write a v } else .error .addressOutOfRange

/-- `MemWrite` of each byte at consecutive addresses, ascending (the loop of R65). -/
def State.memWriteAll (s : State) : Nat → List Byte → Except Fault State
  | _, [] => .ok s
  | a, b :: rest =>
    match s.memWrite a b with
    | .error e => .error e
    | .ok s' => State.memWriteAll s' (a + 1) rest

/-- COPY's guarded write, sub-step c2: "if T < CAPACITY then MemWrite(T, 1, v)", otherwise "nothing: no write, no error" (R70,
R73). -/
def State.writeTarget (s : State) (T : Addr) (v : Byte) : Except Fault State :=
  if s.inRange T.toNat then s.memWrite T.toNat v else .ok s

/-- TAKING A FAULT, `raise e` (R122): the running command ends with `Err(e)`, pc and iteration are discarded, `M` stays as it
stands, the status becomes FAULTED. Nothing is saved and there is no handler; the return from it is RESET alone (R124), which
is `State.doReset` of Machine/Commands.lean. -/
def State.raise (e : Fault) (s : State) : State :=
  { s with status := .faulted, frame := none, result := some (.failed e) }

/-- A next state changed by `f`; a stop stays as it is. -/
def mapNext (f : State → State) : Host.Outcome State Fault Refusal → Host.Outcome State Fault Refusal
  | .next s => .next (f s)
  | .fault e => .fault e
  | .refused r => .refused r

end Sys2Proof.Machine
end

