-- ==== Sys2Proof/Machine/Operands.lean ====
section
/-! DEFINITION. Operand forms and memory-mapped fields. COPY has one operand form, the absolute 24-bit address held in three bytes
of its own record (spec/30_encoding.md R52); the hardware's fields KEYS, PCVEC and PAGESEL are cells of `M` at fixed addresses
(spec/10_state.md R16 to R18). -/

namespace Sys2Proof.Machine

/-- `MemRead(pc, 3)`: the source field `S` (R52, sub-step a). -/
def State.sourceField (s : State) (pc : Addr) : Except Fault Addr :=
  (s.memRead pc.toNat Config.addrBytes).map (BitVec.ofNat 24)

/-- `MemRead(pc + 3, 3)`: the target field `T` (R52, sub-step b). -/
def State.targetField (s : State) (pc : Addr) : Except Fault Addr :=
  (s.memRead (pc.toNat + 3) Config.addrBytes).map (BitVec.ofNat 24)

/-- `MemRead(pc + 6, 3)`: the next field `N` as memory holds it now (R52, sub-step d). -/
def State.nextField (s : State) (pc : Addr) : Except Fault Addr :=
  (s.memRead (pc.toNat + 6) Config.addrBytes).map (BitVec.ofNat 24)

/-- The instruction at `pc`, if its nine bytes lie in memory (R54). -/
def State.fetchInstr (s : State) (pc : Addr) : Option Instr :=
  match s.readBytes pc.toNat Config.instrBytes with
  | .error _ => none
  | .ok bs =>
    match decode bs with
    | .ok (i, _) => some i
    | .error _ => none

/-- The source field `S` that the bytes of `m` at `pc` make, big-endian, where they lie in memory (R51, R52). -/
def sourceFieldIn (m : Memory) (pc : Addr) : Addr :=
  addrOfBytes (m.read pc.toNat) (m.read (pc.toNat + 1)) (m.read (pc.toNat + 2))

/-- The target field `T` that the bytes of `m` at `pc` make (R51, R52). -/
def targetFieldIn (m : Memory) (pc : Addr) : Addr :=
  addrOfBytes (m.read (pc.toNat + 3)) (m.read (pc.toNat + 4)) (m.read (pc.toNat + 5))

/-- The next field `N` that the bytes of `m` at `pc` make (R51, R52). -/
def nextFieldIn (m : Memory) (pc : Addr) : Addr :=
  addrOfBytes (m.read (pc.toNat + 6)) (m.read (pc.toNat + 7)) (m.read (pc.toNat + 8))

/-- KEYS, the key bitmask as `M[0]` and `M[1]` hold it, big-endian (R16). -/
def State.keysField (s : State) : KeyMask :=
  BitVec.ofNat 16 (foldBytes [s.mem.read Config.keysOffset, s.mem.read (Config.keysOffset + 1)])

/-- PCVEC = {M[2], M[3], M[4]}, the frame entry vector (R17). -/
def State.pcVec (s : State) : Addr :=
  addrOfBytes (s.mem.read Config.pcVecOffset) (s.mem.read (Config.pcVecOffset + 1)) (s.mem.read (Config.pcVecOffset + 2))

/-- PAGESEL = M[5], the framebuffer page selector (R18). -/
def State.pageSel (s : State) : Byte :=
  s.mem.read Config.pageSelOffset

/-- WRITE_KEYS(keys), the first sub-step of STEP_FRAME: `M[0] <- keys[15:8]`, `M[1] <- keys[7:0]` (spec/43_input_mapper.md R95).
The bits are stored uninterpreted: bit `k` of `keys` belongs to the key labelled `k` (R96), and no polarity is assumed (log
entry 14). -/
def State.writeKeys (s : State) (keys : KeyMask) : Except Fault State :=
  match s.memWrite Config.keysOffset (keys.extractLsb' 8 8) with
  | .error e => .error e
  | .ok s1 => s1.memWrite (Config.keysOffset + 1) (keys.extractLsb' 0 8)

end Sys2Proof.Machine
end

