-- ==== Sys2Proof/Machine/Display.lean ====
section
/-! DEFINITION. The display decoder's functions (spec/44_display_decoder.md): the palette and the page read. -/

namespace Sys2Proof.Machine

/-- The palette function (R103): below 216 the base-6 digits of the index times 51, the other 40 indices black. -/
def palette (c : Byte) : Pixel :=
  if c.toNat < Config.paletteColours then
    { red := BitVec.ofNat 8 (c.toNat / 36 % Config.paletteRadix * Config.paletteScale)
      green := BitVec.ofNat 8 (c.toNat / 6 % Config.paletteRadix * Config.paletteScale)
      blue := BitVec.ofNat 8 (c.toNat % Config.paletteRadix * Config.paletteScale) }
  else { red := 0, green := 0, blue := 0 }

/-- The column of the pixel of linear index `i` (R104; the linear index is the primary form, log entry 11). -/
def pixelColumn (i : Nat) : Nat := i % Config.fbWidth

/-- The row of the pixel of linear index `i` (R104). -/
def pixelRow (i : Nat) : Nat := i / Config.fbWidth

/-- `pageBase = pageSelector << 16`, exact and not truncated (R100 step 2, R107). -/
def pageBase (sel : Nat) : Nat := sel <<< Config.pageShift

/-- The whole page at `base` decoded: `P[i] = palette(M[base + i])` for `i` from 0 to 65535 (R100 step 4). -/
def State.decodePage (s : State) (base : Nat) : Except Fault (List Pixel) :=
  (s.readBytes base Config.pageBytes).map (List.map palette)

end Sys2Proof.Machine
end

