-- ==== Sys2Proof/Machine/Commands.lean ====
section
/-! DEFINITION. The four host commands (spec/30_encoding.md R57) and their acceptance in the order spec/70_reset_and_hazards.md R137
gives a meaning. Each takes the state from which the command has been taken off `pending`. -/

namespace Sys2Proof.Machine

/-- RESET (R135, R24): every cell of `M` becomes 0x00 and the status RUNNING. CAPACITY is "fixed for the life of the machine"
(R5); what the host has still to issue is the host's, and the draw counter goes on so that a later free value is a fresh one
(log entries 3 and 8). -/
def State.doReset (s : State) : State :=
  { State.resetWith s.capacity with pending := s.pending, draws := s.draws }

/-- LOAD_ROM(rom) (spec/40_rom_loader.md R65): `rom` to address 0 and up, `Ok(len)`; longer than the memory it is RomTooLarge, and
then `M` is unspecified, a FREE VALUE in every cell (R66, decision D7; log entry 8). -/
def State.doLoadRom (rom : List Byte) (s : State) : State :=
  if s.cap < rom.length then
    State.raise .romTooLarge
      { s with mem := Memory.ofFn s.cap (Config.freeByte s.draws), draws := s.draws + 1 }
  else
    match s.memWriteAll 0 rom with
    | .error e => s.raise e
    | .ok s' => { s' with result := some (.romLoaded rom.length) }

/-- STEP_FRAME(keys), its steps 1 and 2 (spec/42_step_frame.md R85): the keys are written, then PCVEC is read, and the frame begins
at iteration 0. Its step 3, the COPYs, are the machine's next steps (Machine/Engine.lean). -/
def State.doStepFrame (keys : KeyMask) (s : State) : State :=
  match s.writeKeys keys with
  | .error e => s.raise e
  | .ok s1 =>
    match s1.memRead Config.pcVecOffset Config.addrBytes with
    | .error e => s1.raise e
    | .ok pc => { s1 with frame := some { pc := BitVec.ofNat 24 pc, iter := 0 }, result := none }

/-- DECODE_FRAME (spec/44_display_decoder.md R100): the page selector, the bounds check on the whole page (R102), the pixels. `M` is
not changed (R105). -/
def State.doDecodeFrame (s : State) : State :=
  match s.memRead Config.pageSelOffset 1 with
  | .error e => s.raise e
  | .ok sel =>
    if s.cap < pageBase sel + Config.pageBytes then s.raise .addressOutOfRange
    else
      match s.decodePage (pageBase sel) with
      | .error e => s.raise e
      | .ok P => { s with result := some (.pixelBuffer P) }

/-- No LOAD_ROM after this command (R137). -/
def State.closeRom (s : State) : State := { s with stage := .romClosed }

/-- The commands other than RESET have a meaning only after the first RESET (R135) and only in RUNNING (R124). -/
def State.whenRunning (s : State) (k : Host.Outcome State Fault Refusal) : Host.Outcome State Fault Refusal :=
  match s.stage, s.status with
  | .beforeReset, _ => .refused .commandBeforeReset
  | _, .faulted => .refused .commandInFaulted
  | _, .running => k

/-- LOAD_ROM has a meaning only straight after RESET: "at most once, before any frame command" (R137, R67). -/
def State.whenAwaitingRom (s : State) (k : Host.Outcome State Fault Refusal) : Host.Outcome State Fault Refusal :=
  match s.stage with
  | .awaitingRom => k
  | _ => .refused .romLoadClosed

/-- One host command accepted by an idle core. -/
def State.issue (c : Command) (s : State) : Host.Outcome State Fault Refusal :=
  match c with
  | .reset => .next s.doReset
  | .loadRom rom => s.whenRunning (s.whenAwaitingRom (.next (s.closeRom.doLoadRom rom)))
  | .stepFrame keys => s.whenRunning (.next (s.closeRom.doStepFrame keys))
  | .decodeFrame => s.whenRunning (.next s.closeRom.doDecodeFrame)

/-- An idle core: it takes the host's next command, and with none it stays as it is, "between commands the core is idle and M
does not change" (spec/20_memory.md R44). -/
def State.idleStep (s : State) : Host.Outcome State Fault Refusal :=
  match s.pending with
  | [] => .next s
  | c :: rest => State.issue c { s with pending := rest }

end Sys2Proof.Machine
end

