-- ==== Sys2Proof/Machine/Copy.lean ====
section
/-! DEFINITION. The family of the one instruction: COPY (spec/41_copy_instruction.md R70 to R77). -/

namespace Sys2Proof.Machine

/-- Sub-steps c1, c2 and d of the COPY at `f.pc` whose fields a and b gave `S` and `T` (R70): read the source byte, which
faults whatever the target is (R74); write the target if it is in range (R73); fetch the next field FROM THE MEMORY AFTER THE
WRITE (R72, R75) and jump. A fault at c1 leaves `M` as it was, a fault at d leaves the write done (R72). -/
def State.copyAndJump (s : State) (f : Frame) (S T : Addr) : State :=
  match s.readByte S.toNat with
  | .error e => s.raise e
  | .ok v =>
    match s.writeTarget T v with
    | .error e => s.raise e
    | .ok s1 =>
      match s1.nextField f.pc with
      | .error e => s1.raise e
      | .ok N => { s1 with frame := some { f with pc := N } }

/-- The whole COPY at `f.pc` with its fields fetched from memory, sub-steps a, b, c1, c2, d in this order (R70, R72). -/
def State.copyAtPc (s : State) (f : Frame) : State :=
  match s.sourceField f.pc with
  | .error e => s.raise e
  | .ok S =>
    match s.targetField f.pc with
    | .error e => s.raise e
    | .ok T => s.copyAndJump f S T

/-- The meaning of `COPY S, T, N` (R70). The decoded `N` is what the record held before the write; sub-step d reads the field
again after it, so the operand itself is not used (R52; log entry 13). Outside a STEP_FRAME there is no pc to execute at
(R13; log entry 15). -/
def execCopy (S T _N : Addr) (s : State) : Host.Outcome State Fault Refusal :=
  match s.frame with
  | none => .refused .copyOutsideFrame
  | some f => .next (s.copyAndJump f S T)

end Sys2Proof.Machine
end

