-- ==== Sys2Proof/Machine/Engine.lean ====
section
/-! DEFINITION. The frame execution engine (spec/42_step_frame.md): one iteration of STEP_FRAME's loop. -/

namespace Sys2Proof.Machine

/-- The end of an iteration that did not fault: the next iteration, or after the 65536th COPY the end of the command with
`Ok(())`, pc and counter discarded (R85 steps 3 and 4, R86, R87). After a fault no frame is left and nothing is done (R89). -/
def State.endIteration (s : State) : State :=
  match s.frame with
  | none => s
  | some f =>
    if h : f.iter.val + 1 < Config.stepsPerFrame then
      { s with frame := some { f with iter := ⟨f.iter.val + 1, h⟩ } }
    else { s with frame := none, result := some .frameDone }

/-- One iteration: the COPY at the pc, then the count. A record whose nine bytes lie in memory is decoded and run by exec. One
that runs past the end of memory is no whole instruction; its sub-steps are done in order up to the one that faults (R71,
R72; log entry 9). -/
def State.copyStep (s : State) (f : Frame) : Host.Outcome State Fault Refusal :=
  match s.fetchInstr f.pc with
  | some i => mapNext State.endIteration (exec i s)
  | none => .next (s.copyAtPc f).endIteration

/-- Where the next instruction fetch would be: the pc of the running frame; with no frame the address a frame would begin at,
PCVEC. Where nine bytes do not fit there, address 0. -/
def State.fetchPlace (s : State) : Addr :=
  let pc := match s.frame with
    | some f => f.pc
    | none => s.pcVec
  if pc.toNat + 8 < s.cap then pc else 0

/-- The iteration the next fetch belongs to: that of the running frame, else the first. -/
def State.fetchIter (s : State) : Fin Config.stepsPerFrame :=
  match s.frame with
  | some f => f.iter
  | none => 0

/-- The state with `bytes` where the next instruction is fetched and a STEP_FRAME about to fetch it. -/
def State.placeRecord (s : State) (bytes : List Byte) : State :=
  { s with
    mem := s.mem.writeBytes s.fetchPlace.toNat bytes
    status := .running
    stage := .romClosed
    frame := some { pc := s.fetchPlace, iter := s.fetchIter }
    result := none }

end Sys2Proof.Machine
end

