-- ==== Sys2Proof/Machine/Step.lean ====
section
/-! DEFINITION. One step of the machine: one COPY of the running STEP_FRAME, or one host command, or nothing. While a frame runs
the host's commands wait (spec/42_step_frame.md R90). -/

namespace Sys2Proof.Machine

/-- One step. -/
def step (s : State) : Host.Outcome State Fault Refusal :=
  match s.frame with
  | some f => s.copyStep f
  | none => s.idleStep

/-- `s` with the instruction whose low `nbits` bits are `w` stored where the next instruction is fetched, and a STEP_FRAME about
to fetch it: the very next step runs it. It stands for the load of a program and the start of a frame (log entry 17). -/
def State.withFetchWord (s : State) (nbits w : Nat) : State :=
  s.placeRecord (recordOfTableWord nbits w)

end Sys2Proof.Machine
end

