-- ==== Sys2Proof/Safety.lean ====
section
/-! DEFINITION. What the states of a run look like: the invariant that every step keeps, the conditions under which a COPY
completes and a command is accepted, and runs of several steps. -/

namespace Sys2Proof.Machine

/-- The invariant of the machine. -/
structure State.Inv (s : State) : Prop where
  /-- The memory is in canonical form. -/
  canonical : s.mem.wf = true
  /-- The Memory Image has CAPACITY cells (R10). -/
  inMemory : s.mem.below s.cap = true
  /-- A frame runs only in RUNNING, after a frame command, with no result yet (R20, R85, R137). -/
  frameRuns : s.frame ≠ none → s.status = .running ∧ s.stage = .romClosed ∧ s.result = none
  /-- FAULTED exactly when the last command gave the host an error (R20, R122). -/
  faultShown : s.status = .faulted ↔ ∃ e, s.result = some (.failed e)
  /-- A pixel buffer has 65536 pixels (R106). -/
  bufferWhole : ∀ P, s.result = some (.pixelBuffer P) → P.length = Config.pageBytes
  /-- Before the first RESET nothing has happened, and nothing but RESET has a meaning (R135). -/
  beforeReset : s.stage = .beforeReset → s.result = none
  /-- After RESET and before any other command there is no result and all of `M` is 0x00 (R24). -/
  afterReset : s.stage = .awaitingRom → s.result = none ∧ s.mem = []

/-- `n` steps, stopping at the first refusal (or fault): the host's own run of the machine (`Host.Core.run`), on the model's types. -/
def run : Nat → State → Host.Outcome State Fault Refusal
  | 0, s => .next s
  | n + 1, s =>
    match step s with
    | .next t => run n t
    | .fault e => .fault e
    | .refused r => .refused r

/-- The machine is ready for a frame command: idle, RUNNING, after a RESET (R137). -/
structure State.Ready (s : State) : Prop where
  idle : s.frame = none
  running : s.status = .running
  created : s.stage ≠ .beforeReset

/-- A COPY at `pc` whose source field is `S` completes without fault: "exactly when pc + 8 < CAPACITY and S < CAPACITY"
(spec/41_copy_instruction.md R71). -/
abbrev State.CopyCompletes (s : State) (pc S : Addr) : Prop :=
  s.inRange (pc.toNat + 8) ∧ s.inRange S.toNat

end Sys2Proof.Machine
end

