-- ==== Sys2Proof/Certificates/Slice0/Obligations.lean ====
section
/-! DEFINITION. The statements for the provers, each a rule of spec/ about what the machine does. They speak of EVERY state, so of both
values of CAPACITY (it is a field of State), and of states no run reaches; where one needs an invariant it says so. -/

open Sys2Proof Sys2Proof.Machine

/-! ## Encoding -/

/-- V11 of spec/95_test_vectors.md: three records written out byte by byte decode to the instructions they stand for, and so does the
72-bit number of the first (R8, R51; that the opcode table numbers the record as ONE word is DEDUCED, log entry 16). -/
def Obligations.SpecRecordsDecode : Prop :=
  decode [0x12, 0x34, 0x56, 0x78, 0x9A, 0xBC, 0xDE, 0xF0, 0x12] = .ok (.copy 0x123456 0x789ABC 0xDEF012, []) ∧
  decode [0, 0, 0, 0, 0, 0, 0, 0, 0] = .ok (.copy 0 0 0, []) ∧
  decode [0xFF, 0xFF, 0xFF, 0xFF, 0xFF, 0xFF, 0xFF, 0xFF, 0xFF] = .ok (.copy 0xFFFFFF 0xFFFFFF 0xFFFFFF, []) ∧
  decodeTableWord 72 0x123456789ABCDEF012 = some (.copy 0x123456 0x789ABC 0xDEF012)

/-- Decoding an encoded instruction gives it back, whatever follows it in memory, with every operand at every value (R51, R55). -/
def Obligations.DecodeAfterEncodeIsIdentity : Prop :=
  ∀ (i : Instr) (rest : List Byte), decode (encode i ++ rest) = .ok (i, rest)

/-- R53: every nine bytes are the instruction COPY with those operands (and its encoding is those bytes), so no encoding is
illegal; R50: fewer than nine are no instruction. -/
def Obligations.EveryNineBytesAreOneCopy : Prop :=
  (∀ bytes rest : List Byte, bytes.length = 9 →
    ∃ S T N, decode (bytes ++ rest) = .ok (.copy S T N, rest) ∧ encode (.copy S T N) = bytes) ∧
  (∀ bytes : List Byte, bytes.length < 9 → decode bytes = .error .truncated)

/-- R8 and R51: with `I = MemRead(pc, 9)` the byte at `pc` holds `I[71:64]`, the byte at `pc + 8` holds `I[7:0]`, and the
instruction's fields are `S = I[71:48]`, `T = I[47:24]`, `N = I[23:0]`; that the opcode table's number of it is `I` is DEDUCED (log
entry 16). -/
def Obligations.FieldsAreBitRangesOfTheRecord : Prop :=
  ∀ (s : State) (pc : Addr) (I : BitVec 72), s.memRead pc.toNat 9 = .ok I.toNat →
    s.mem.read pc.toNat = I.extractLsb' 64 8 ∧
    s.mem.read (pc.toNat + 8) = I.extractLsb' 0 8 ∧
    s.fetchInstr pc = some (.copy (I.extractLsb' 48 24) (I.extractLsb' 24 24) (I.extractLsb' 0 24)) ∧
    decodeTableWord 72 I.toNat = s.fetchInstr pc

/-- R52, R54: an instruction can be fetched at `pc` exactly when `pc + 8 < CAPACITY`, and its fields are `MemRead(pc, 3)`,
`MemRead(pc + 3, 3)` and `MemRead(pc + 6, 3)`, each the number `b0 * 65536 + b1 * 256 + b2` of its bytes, zero-extended. -/
def Obligations.FieldsAreThreeByteReads : Prop :=
  ∀ (s : State) (pc : Addr),
    ((s.fetchInstr pc).isSome = true ↔ s.inRange (pc.toNat + 8)) ∧
    ∀ S T N, s.fetchInstr pc = some (.copy S T N) →
      s.memRead pc.toNat 3 = .ok S.toNat ∧ s.memRead (pc.toNat + 3) 3 = .ok T.toNat ∧
      s.memRead (pc.toNat + 6) 3 = .ok N.toNat ∧
      S.toNat = (s.mem.read pc.toNat).toNat * 65536 + (s.mem.read (pc.toNat + 1)).toNat * 256
        + (s.mem.read (pc.toNat + 2)).toNat

/-! ## Memory and the address resolver -/

/-- R31, R32: a read in range gives the cell; a write in range is read back, and no other cell's read changes; a write or a read
out of range raises AddressOutOfRange. -/
def Obligations.WriteThenReadBack : Prop :=
  ∀ (s : State) (a : Nat) (v : Byte),
    (s.inRange a → s.readByte a = .ok (s.mem.read a) ∧ ∃ t, s.memWrite a v = .ok t ∧ t.readByte a = .ok v ∧
      (∀ b, b ≠ a → t.readByte b = s.readByte b) ∧ t = { s with mem := t.mem }) ∧
    (s.cap ≤ a → s.memWrite a v = .error .addressOutOfRange ∧ s.readByte a = .error .addressOutOfRange)

/-- R33, R34, R35: `MemRead(offset, n)` raises exactly when `n >= 1` and `offset + n > CAPACITY` (no wrap); otherwise it is the
unsigned big-endian value of the bytes, below `2^(8n)`. -/
def Obligations.ResolverFoldsBigEndian : Prop :=
  ∀ (s : State) (offset n : Nat),
    (s.memRead offset n = .error .addressOutOfRange ↔ 1 ≤ n ∧ s.cap < offset + n) ∧
    (¬ (1 ≤ n ∧ s.cap < offset + n) →
      ∃ r, s.memRead offset n = .ok r ∧ r < 2 ^ (8 * n) ∧
        r = ∑ k ∈ Finset.range n, (s.mem.read (offset + k)).toNat * 256 ^ (n - 1 - k))

/-- Equal memories are equal data: two canonical memories that read alike at every address are the same list (the cells of R10
determine `M`). The canonical form is the model's own (log entry 12). -/
def Obligations.EqualReadsAreEqualMemories : Prop :=
  ∀ m₁ m₂ : Memory, m₁.wf = true → m₂.wf = true → (∀ a, m₁.read a = m₂.read a) → m₁ = m₂

/-! ## COPY -/

/-- R70: a COPY at `pc` with `pc + 8 < CAPACITY` and `S < CAPACITY` completes: the byte at `S` goes to `T` if `T` is in range, and
the pc is the next field of the memory AFTER the write; nothing else changes. -/
def Obligations.CopyCompletesWithItsEffect : Prop :=
  ∀ (s : State) (f : Frame) (S T N : Addr), s.frame = some f → s.CopyCompletes f.pc S →
    ∃ t, exec (.copy S T N) s = .next t ∧
      (∀ a, t.mem.read a = if a = T.toNat ∧ s.inRange T.toNat then s.mem.read S.toNat else s.mem.read a) ∧
      t.frame = some { f with pc := nextFieldIn t.mem f.pc } ∧
      t = { s with mem := t.mem, frame := t.frame }

/-- The frame of COPY: whenever exec gives a next state, every byte of memory but the target's is as before (every byte, where
the target or the source is out of range), CAPACITY and the host's side are as before, and where it did not fault (R71) the
status, the result and the iteration are as before (R70, R73, R74). -/
def Obligations.CopyFrame : Prop :=
  ∀ (s t : State) (S T N : Addr), exec (.copy S T N) s = .next t →
    (∀ a, a ≠ T.toNat → t.mem.read a = s.mem.read a) ∧
    (s.cap ≤ T.toNat ∨ s.cap ≤ S.toNat → ∀ a, t.mem.read a = s.mem.read a) ∧
    t.capacity = s.capacity ∧ t.stage = s.stage ∧ t.pending = s.pending ∧ t.draws = s.draws ∧
    ∃ f, s.frame = some f ∧
      (s.CopyCompletes f.pc S →
        t.status = s.status ∧ t.result = s.result ∧ ∃ pc, t.frame = some { f with pc := pc })

/-- R76: a COPY that does not write its own next field ends with the unconditional absolute jump to the `N` it was decoded
with. -/
def Obligations.CopyJumpsToItsNextField : Prop :=
  ∀ (s : State) (f : Frame) (S T N : Addr), s.frame = some f → s.fetchInstr f.pc = some (.copy S T N) →
    s.inRange S.toNat → (T.toNat < f.pc.toNat + 6 ∨ f.pc.toNat + 8 < T.toNat) →
    ∃ t, exec (.copy S T N) s = .next t ∧ t.frame = some { f with pc := N }

/-- R75 (1) and (2), R43: a COPY whose target is byte `k` of its own record leaves the record with that byte replaced; its
source and target were those of the OLD record, and it jumps to the `N` of the NEW one. -/
def Obligations.CopyOntoItselfJumpsToTheNewNext : Prop :=
  ∀ (s : State) (f : Frame) (S T N : Addr) (k : Nat), s.frame = some f → s.fetchInstr f.pc = some (.copy S T N) →
    s.inRange S.toNat → k < 9 → T.toNat = f.pc.toNat + k →
    ∃ t S' T' N', exec (.copy S T N) s = .next t ∧
      t.fetchInstr f.pc = some (.copy S' T' N') ∧
      encode (.copy S' T' N') = (encode (.copy S T N)).set k (s.mem.read S.toNat) ∧
      t.frame = some { f with pc := N' } ∧
      (k < 6 → N' = N)

/-- R74: a source out of range is always AddressOutOfRange, whatever the target is: nothing is written and the machine is FAULTED;
with 24-bit fields this is `S = 0xFFFFFF` at CAPACITY = 0xFFFFFF. That it faults where the target is out of range too is the spec's
own decision D2 (log entry 20). -/
def Obligations.SourceOutOfRangeAlwaysFaults : Prop :=
  (∀ (s : State) (f : Frame) (S T N : Addr), s.frame = some f → s.cap ≤ S.toNat →
    exec (.copy S T N) s =
      .next { s with status := .faulted, frame := none, result := some (.failed .addressOutOfRange) }) ∧
  (∀ (s : State) (S : Addr), s.cap ≤ S.toNat ↔ s.capacity = .short ∧ S = 0xFFFFFF)

/-- R73: a target out of range is skipped in silence: no cell changes, no error, and the COPY goes on to its next field. The source
is still read and can still fault (R74), and so can the fetch of the next field (R71). With 24-bit fields this is `T = 0xFFFFFF` at
CAPACITY = 0xFFFFFF. That source and target both out of range are a fault, and no silent skip, is the spec's own decision D2 (DESIGN
CHOICE, log entry 20); R71 is marked by the spec as its inference. -/
def Obligations.TargetOutOfRangeIsSkipped : Prop :=
  (∀ (s : State) (f : Frame) (S T N : Addr), s.frame = some f → s.cap ≤ T.toNat → s.CopyCompletes f.pc S →
    exec (.copy S T N) s = .next { s with frame := some { f with pc := nextFieldIn s.mem f.pc } }) ∧
  (∀ (s : State) (f : Frame) (S T N : Addr), s.frame = some f → s.cap ≤ T.toNat →
    (s.cap ≤ S.toNat ∨ s.cap ≤ f.pc.toNat + 8) → ∃ t, exec (.copy S T N) s = .next t ∧
      t.result = some (.failed .addressOutOfRange) ∧ t.mem = s.mem) ∧
  (∀ (s : State) (T : Addr), s.cap ≤ T.toNat ↔ s.capacity = .short ∧ T = 0xFFFFFF)

/-- R71: when a COPY faults, complete, in the order the conditions are tested, with what it wrote before the raise; and when it
completes. The last two parts say which of the conditions can hold at each CAPACITY. The spec marks this list as its own inference
from R70; that the sub-steps of a record cut off at the top of memory happen is DEDUCED (log entry 9). -/
def Obligations.CopyFaultsInOrder : Prop :=
  (∀ (s : State) (f : Frame), s.frame = some f →
    (s.cap ≤ f.pc.toNat + 2 ∨ s.cap ≤ f.pc.toNat + 5 ∨ s.cap ≤ (sourceFieldIn s.mem f.pc).toNat →
      step s = .next { s with status := .faulted, frame := none, result := some (.failed .addressOutOfRange) }) ∧
    (f.pc.toNat + 5 < s.cap → (sourceFieldIn s.mem f.pc).toNat < s.cap → s.cap ≤ f.pc.toNat + 8 →
      ∃ t, step s = .next t ∧
        (∀ a, t.mem.read a =
          if a = (targetFieldIn s.mem f.pc).toNat ∧ a < s.cap then s.mem.read (sourceFieldIn s.mem f.pc).toNat
          else s.mem.read a) ∧
        t = { s with mem := t.mem, status := .faulted, frame := none, result := some (.failed .addressOutOfRange) }) ∧
    (f.pc.toNat + 8 < s.cap → (sourceFieldIn s.mem f.pc).toNat < s.cap →
      ∃ t, step s = .next t ∧ t.status = s.status ∧
        (∀ a, t.mem.read a =
          if a = (targetFieldIn s.mem f.pc).toNat ∧ a < s.cap then s.mem.read (sourceFieldIn s.mem f.pc).toNat
          else s.mem.read a))) ∧
  (∀ (s : State) (pc S : Addr), s.capacity = .full →
    (s.cap ≤ pc.toNat + 8 ↔ 0xFFFFF8 ≤ pc.toNat) ∧ ¬ s.cap ≤ S.toNat) ∧
  (∀ (s : State) (pc S : Addr), s.capacity = .short →
    (s.cap ≤ pc.toNat + 8 ↔ 0xFFFFF7 ≤ pc.toNat) ∧ (s.cap ≤ S.toNat ↔ S = 0xFFFFFF))

/-! ## The frame engine -/

/-- A step inside a frame, when the nine bytes at the pc decode to the well-formed instruction `i`, is exec of `i` at this state
with the end of the iteration around it: the next iteration, or after the 65536th COPY the end of the command (R54, R85). -/
def Obligations.StepRunsTheDecodedInstruction : Prop :=
  ∀ (s : State) (f : Frame) (bytes rest : List Byte) (i : Instr), s.frame = some f →
    s.readBytes f.pc.toNat 9 = .ok bytes → decode bytes = .ok (i, rest) → i.wellFormed = true →
    step s = mapNext State.endIteration (exec i s)

/-- R86, R87: a COPY that completes leads to the next iteration at its next field; the 65536th one ends the command with `Ok(())`
and the next field it fetched is discarded, whatever it is. That a COPY is one step is the model's choice (log entry 2); that the last
one fetches its next field is the spec's decision D10 (log entry 10). -/
def Obligations.IterationsAreCounted : Prop :=
  ∀ (s : State) (f : Frame), s.frame = some f → s.CopyCompletes f.pc (sourceFieldIn s.mem f.pc) →
    ∃ t, step s = .next t ∧ t.status = s.status ∧ t.pending = s.pending ∧
      (∀ h : f.iter.val + 1 < 65536,
        t.frame = some { pc := nextFieldIn t.mem f.pc, iter := ⟨f.iter.val + 1, h⟩ } ∧ t.result = s.result) ∧
      (f.iter.val = 65535 → t.frame = none ∧ t.result = some .frameDone)

/-- R85 steps 1 and 2, R97, R141, R142: the acceptance of STEP_FRAME(keys) writes the key bytes over whatever was there, changes no
other cell, and begins the frame at PCVEC with iteration 0, wherever an earlier frame had ended. That the acceptance is a step of its
own, and the fields stage, pending and result, are the model's (log entries 2, 3, 4, 7). -/
def Obligations.StepFrameWritesKeysAndStartsAtPcVec : Prop :=
  ∀ (s : State) (keys : KeyMask) (rest : List Command), s.Ready → s.pending = .stepFrame keys :: rest →
    ∃ t, step s = .next t ∧
      t.mem.read 0 = keys.extractLsb' 8 8 ∧ t.mem.read 1 = keys.extractLsb' 0 8 ∧ t.keysField = keys ∧
      (∀ a, 2 ≤ a → t.mem.read a = s.mem.read a) ∧
      t.frame = some { pc := s.pcVec, iter := 0 } ∧
      t.status = .running ∧ t.stage = .romClosed ∧ t.result = none ∧ t.pending = rest ∧ t.capacity = s.capacity

/-- R86, C7: a STEP_FRAME executes exactly 65536 COPYs unless a fault ends it, and it always ends: its acceptance and its COPYs are
at most 65537 steps; before the last of them the frame runs and its counter tells how many COPYs have completed. That a COPY is one
step, and the acceptance another, is the model's choice (log entry 2). -/
def Obligations.FrameRunsExactly65536Copies : Prop :=
  ∀ (s : State) (keys : KeyMask) (rest : List Command), s.Ready → s.pending = .stepFrame keys :: rest →
    ∃ n t, run n s = .next t ∧ t.frame = none ∧ t.pending = rest ∧
      ((n = 65537 ∧ t.status = .running ∧ t.result = some .frameDone) ∨
       (2 ≤ n ∧ n ≤ 65537 ∧ t.status = .faulted ∧ t.result = some (.failed .addressOutOfRange))) ∧
      ∀ m, 1 ≤ m → m < n →
        ∃ u f, run m s = .next u ∧ u.frame = some f ∧ f.iter.val + 1 = m ∧ u.status = .running

/-- R88, V8: two machines with equal memory and CAPACITY, given the same RESET, STEP_FRAME and DECODE_FRAME commands with the same
keys, have equal memory, status and results (pixel buffers among them) after every number of steps, or are refused alike. The count of
steps and the list of commands are the model's (log entries 2, 3). -/
def Obligations.SameMemoryAndKeysSameResults : Prop :=
  ∀ (s₁ s₂ : State) (cmds : List Command) (n : Nat), s₁.Ready → s₂.Ready →
    s₁.capacity = s₂.capacity → s₁.mem = s₂.mem → s₁.result = s₂.result →
    (∀ c ∈ cmds, ∀ rom, c ≠ .loadRom rom) → s₁.pending = cmds → s₂.pending = cmds →
    (∃ t₁ t₂, run n s₁ = .next t₁ ∧ run n s₂ = .next t₂ ∧
      t₁.mem = t₂.mem ∧ t₁.status = t₂.status ∧ t₁.frame = t₂.frame ∧ t₁.result = t₂.result) ∨
    (∃ r, run n s₁ = .refused r ∧ run n s₂ = .refused r)

/-- R90, R44: while a frame runs the host's commands wait: they neither change what a step does nor are taken. The list of commands
is the model's (log entry 3). -/
def Obligations.RunningFrameIgnoresTheHost : Prop :=
  ∀ (s : State) (cmds : List Command), s.frame ≠ none →
    step { s with pending := cmds } = mapNext (fun t => { t with pending := cmds }) (step s) ∧
    ∀ t, step s = .next t → t.pending = s.pending

/-- R56, R76, R143: a COPY that jumps to itself and copies a byte onto itself is run for the rest of the frame and changes nothing
but the iteration count, and the frame then ends with `Ok(())`. The canonical form of memory is a premise (StepKeepsInvariant); that a
COPY is one step is the model's choice (log entry 2). -/
def Obligations.SelfJumpSpinsToTheEndOfTheFrame : Prop :=
  ∀ (s : State) (f : Frame) (S : Addr), s.mem.wf = true → s.frame = some f →
    s.fetchInstr f.pc = some (.copy S S f.pc) → s.inRange S.toNat →
    (∀ k, (h : f.iter.val + k < 65536) →
      run k s = .next { s with frame := some { f with iter := ⟨f.iter.val + k, h⟩ } }) ∧
    run (65536 - f.iter.val) s = .next { s with frame := none, result := some .frameDone }

/-! ## The key bytes -/

/-- R95: WRITE_KEYS stores the high byte at 0 and the low byte at 1, raises nothing, changes no other cell; `MemRead(0, 2)` is then
`keys`; and the order of the two writes cannot be observed. -/
def Obligations.WriteKeysStoresBothBytes : Prop :=
  ∀ (s : State) (keys : KeyMask),
    ∃ t, s.writeKeys keys = .ok t ∧ t = { s with mem := t.mem } ∧
      t.mem.read 0 = BitVec.ofNat 8 (keys.toNat / 256) ∧ t.mem.read 1 = BitVec.ofNat 8 (keys.toNat % 256) ∧
      (∀ a, 2 ≤ a → t.mem.read a = s.mem.read a) ∧
      t.memRead 0 2 = .ok keys.toNat ∧
      ∃ u v, s.memWrite 1 (BitVec.ofNat 8 (keys.toNat % 256)) = .ok u ∧
        u.memWrite 0 (BitVec.ofNat 8 (keys.toNat / 256)) = .ok v ∧ ∀ a, v.mem.read a = t.mem.read a

/-- R96: the key labelled `k` is bit `k` of `keys` (mask `2^k`): it lands in `M[1]` bit `k` for the keys 0 to 7, in `M[0]` bit
`k - 8` for the keys 8 to F. -/
def Obligations.EachKeyLandsInItsBit : Prop :=
  ∀ (s t : State) (keys : KeyMask) (k : Nat), k < 16 → s.writeKeys keys = .ok t →
    (if k < 8 then (t.mem.read 1).getLsbD k else (t.mem.read 0).getLsbD (k - 8)) = keys.getLsbD k ∧
    (keys.getLsbD k = true ↔ keys &&& BitVec.twoPow 16 k ≠ 0)

/-! ## RESET and LOAD_ROM -/

/-- R24: RESET, from any idle state whatever its status, leaves every cell 0x00 (KEYS, PCVEC and PAGESEL among them) and the status
RUNNING, and no pc. -/
def Obligations.ResetZeroesTheMachine : Prop :=
  ∀ (s : State) (rest : List Command), s.frame = none → s.pending = .reset :: rest →
    ∃ t, step s = .next t ∧ (∀ a, t.mem.read a = 0) ∧ t.status = .running ∧ t.frame = none ∧
      t.keysField = 0 ∧ t.pcVec = 0 ∧ t.pageSel = 0

/-- R65, R66: LOAD_ROM of at most CAPACITY bytes writes them to address 0 and up, leaves every cell after them as it was and reports
their number; a longer image is RomTooLarge and the machine FAULTED (what `M` then holds is left open, log entry 8). The fields stage,
pending and result are the model's (log entries 3, 4, 7). -/
def Obligations.LoadRomCopiesTheImage : Prop :=
  ∀ (s : State) (rom : List Byte) (rest : List Command), s.Ready → s.stage = .awaitingRom →
    s.pending = .loadRom rom :: rest →
    ∃ t, step s = .next t ∧ t.frame = none ∧ t.pending = rest ∧ t.stage = .romClosed ∧ t.capacity = s.capacity ∧
      (rom.length ≤ s.cap →
        t.status = .running ∧ t.result = some (.romLoaded rom.length) ∧
        (∀ a b, rom[a]? = some b → t.mem.read a = b) ∧
        (∀ a, rom.length ≤ a → t.mem.read a = s.mem.read a)) ∧
      (s.cap < rom.length → t.status = .faulted ∧ t.result = some (.failed .romTooLarge))

/-- R117: RomTooLarge is raised by LOAD_ROM when the image has more than CAPACITY bytes, and by nothing else: a step after which it
is the result either raised it so or did nothing at all, and an accepted LOAD_ROM raises it exactly then. -/
def Obligations.RomTooLargeOnlyFromLoadRom : Prop :=
  (∀ s t : State, s.Inv → step s = .next t → t.result = some (.failed .romTooLarge) →
    (∃ rom rest, s.frame = none ∧ s.pending = .loadRom rom :: rest ∧ s.cap < rom.length) ∨
    (s.frame = none ∧ s.pending = [] ∧ t = s)) ∧
  (∀ (s t : State) (rom : List Byte) (rest : List Command), s.frame = none → s.pending = .loadRom rom :: rest →
    step s = .next t → (t.result = some (.failed .romTooLarge) ↔ s.cap < rom.length))

/-! ## The display decoder -/

/-- R100, R101, R105: DECODE_FRAME of a page that lies in memory returns 65536 pixels, `P[i] = palette(M[base + i])`, and changes no
cell and not the status. The fields result and pending are the model's (log entries 3, 4). -/
def Obligations.DecodeFrameReturnsThePage : Prop :=
  ∀ (s : State) (rest : List Command), s.Ready → s.pending = .decodeFrame :: rest →
    s.pageSel.toNat * 65536 + 65536 ≤ s.cap →
    ∃ t P, step s = .next t ∧ t.result = some (.pixelBuffer P) ∧ P.length = 65536 ∧
      (∀ i, i < 65536 → P[i]? = some (palette (s.mem.read (s.pageSel.toNat * 65536 + i)))) ∧
      t.mem = s.mem ∧ t.status = .running ∧ t.frame = none ∧ t.pending = rest ∧ t.capacity = s.capacity

/-- R102: DECODE_FRAME of a page that runs past CAPACITY is AddressOutOfRange: no pixel buffer, `M` unchanged, FAULTED. This is
never so at CAPACITY = 0x1000000 and exactly for PAGESEL = 0xFF at CAPACITY = 0xFFFFFF. -/
def Obligations.DecodeFrameChecksThePage : Prop :=
  (∀ (s : State) (rest : List Command), s.Ready → s.pending = .decodeFrame :: rest →
    ∃ t, step s = .next t ∧ t.mem = s.mem ∧
      (s.cap < s.pageSel.toNat * 65536 + 65536 →
        t.status = .faulted ∧ t.result = some (.failed .addressOutOfRange)) ∧
      (¬ s.cap < s.pageSel.toNat * 65536 + 65536 →
        t.status = .running ∧ ∃ P, t.result = some (.pixelBuffer P))) ∧
  (∀ s : State, s.cap < s.pageSel.toNat * 65536 + 65536 ↔ s.capacity = .short ∧ s.pageSel = 0xFF)

/-- R103: the palette. Below 216 the index is `36 r + 6 g + b` for base-6 digits that each give a component times 51; from 216 on
the colour is black. Different indices below 216 have different colours. -/
def Obligations.PaletteIsTheColourCube : Prop :=
  (∀ c : Byte, c.toNat < 216 →
    ∃ r g b, r < 6 ∧ g < 6 ∧ b < 6 ∧ c.toNat = 36 * r + 6 * g + b ∧
      r = c.toNat / 36 % 6 ∧ g = c.toNat / 6 % 6 ∧ b = c.toNat % 6 ∧
      (palette c).red.toNat = r * 51 ∧ (palette c).green.toNat = g * 51 ∧ (palette c).blue.toNat = b * 51) ∧
  (∀ c : Byte, 216 ≤ c.toNat → palette c = { red := 0, green := 0, blue := 0 }) ∧
  (∀ c d : Byte, c.toNat < 216 → d.toNat < 216 → palette c = palette d → c = d)

/-- R101, R104: the pixel of linear index `i` is at column `i % 256`, row `i / 256`, and the address of its byte is
`{PAGESEL, row, column}`; the page is the set of addresses whose top byte is PAGESEL. -/
def Obligations.PixelAddressIsPageRowColumn : Prop :=
  (∀ (sel : Byte) (i : Nat), i < 65536 →
    pixelColumn i < 256 ∧ pixelRow i < 256 ∧ i = 256 * pixelRow i + pixelColumn i ∧
    pageBase sel.toNat + i = (sel ++ BitVec.ofNat 8 (pixelRow i) ++ BitVec.ofNat 8 (pixelColumn i)).toNat) ∧
  (∀ (sel : Byte) (a : Addr), a.extractLsb' 16 8 = sel ↔ ∃ i, i < 65536 ∧ a.toNat = pageBase sel.toNat + i)

/-- R105: DECODE_FRAME is a pure read. Its result depends only on `M` and CAPACITY, and twice in a row it gives the same result and
leaves `M` as it was. -/
def Obligations.DecodeFrameIsAPureRead : Prop :=
  (∀ (s₁ s₂ : State) (rest₁ rest₂ : List Command), s₁.Ready → s₂.Ready → s₁.mem = s₂.mem →
    s₁.capacity = s₂.capacity → s₁.pending = .decodeFrame :: rest₁ → s₂.pending = .decodeFrame :: rest₂ →
    ∃ t₁ t₂, step s₁ = .next t₁ ∧ step s₂ = .next t₂ ∧ t₁.result = t₂.result ∧ t₁.mem = s₁.mem ∧ t₂.mem = s₂.mem) ∧
  (∀ (s t : State) (rest : List Command), s.Ready → s.pending = .decodeFrame :: .decodeFrame :: rest →
    step s = .next t → t.status = .running →
    ∃ u, step t = .next u ∧ u.result = t.result ∧ u.mem = s.mem)

/-! ## Faults, status and the order of commands -/

/-- R116: AddressOutOfRange is raised exactly at these places: a COPY whose source field, target field, source byte or next field is
out of range, and a DECODE_FRAME whose page is; the source and the page are never out of range at CAPACITY = 0x1000000. The spec marks
this list as collected from its other rules. (A machine whose last result is that error already is idle: OnlyResetLeavesFaulted.) -/
def Obligations.AddressOutOfRangeExactlyWhere : Prop :=
  (∀ s t : State, s.Inv → step s = .next t → s.result ≠ some (.failed .addressOutOfRange) →
    (t.result = some (.failed .addressOutOfRange) ↔
      (∃ f, s.frame = some f ∧
        (s.cap ≤ f.pc.toNat + 2 ∨ s.cap ≤ f.pc.toNat + 5 ∨ s.cap ≤ (sourceFieldIn s.mem f.pc).toNat ∨
          s.cap ≤ f.pc.toNat + 8)) ∨
      (s.frame = none ∧ ∃ rest, s.pending = .decodeFrame :: rest ∧ s.cap < s.pageSel.toNat * 65536 + 65536))) ∧
  (∀ (s : State) (S : Addr), s.capacity = .full → S.toNat < s.cap ∧ s.pageSel.toNat * 65536 + 65536 ≤ s.cap)

/-- R20, R124: FAULTED is left by RESET alone. A step in FAULTED that answers a next state did nothing or was a RESET, after which
the status is RUNNING; every other command is refused (the spec's decision D5, log entry 6). -/
def Obligations.OnlyResetLeavesFaulted : Prop :=
  (∀ s t : State, s.Inv → s.status = .faulted → step s = .next t →
    (s.pending = [] ∧ t = s) ∨ (∃ rest, s.pending = .reset :: rest ∧ t.status = .running)) ∧
  (∀ (s : State) (c : Command) (rest : List Command), s.Inv → s.status = .faulted → s.pending = c :: rest →
    c ≠ .reset → step s = .refused .commandInFaulted)

/-- R137, R135, R67: the command orders the machine refuses, complete, each by its name; every other step answers a next state.
The field stage, which keeps the order, is the model's (log entries 6, 7, 18). -/
def Obligations.RefusedExactlyOutsideTheGrammar : Prop :=
  ∀ s : State,
    (step s = .refused .commandBeforeReset ↔
      s.frame = none ∧ s.stage = .beforeReset ∧ ∃ c rest, s.pending = c :: rest ∧ c ≠ .reset) ∧
    (step s = .refused .commandInFaulted ↔
      s.frame = none ∧ s.stage ≠ .beforeReset ∧ s.status = .faulted ∧ ∃ c rest, s.pending = c :: rest ∧ c ≠ .reset) ∧
    (step s = .refused .romLoadClosed ↔
      s.frame = none ∧ s.stage = .romClosed ∧ s.status = .running ∧ ∃ rom rest, s.pending = .loadRom rom :: rest) ∧
    ((∃ t, step s = .next t) ∨ step s = .refused .commandBeforeReset ∨ step s = .refused .commandInFaulted ∨
      step s = .refused .romLoadClosed)

/-- R137, R135, R57: an accepted command is taken off the host's list and moves the machine on in the command grammar: after RESET a
LOAD_ROM may come, after any other command none; RESET leaves no result, and only RESET and the start of a frame leave none. The
fields stage, pending and result are the model's (log entries 3, 4, 7). -/
def Obligations.CommandsAdvanceTheGrammar : Prop :=
  ∀ (s t : State) (c : Command) (rest : List Command), s.frame = none → s.pending = c :: rest → step s = .next t →
    t.pending = rest ∧ t.stage = (if c = .reset then .awaitingRom else .romClosed) ∧
    (t.result = none ↔ c = .reset ∨ ∃ keys, c = .stepFrame keys) ∧
    (t.frame ≠ none ↔ ∃ keys, c = .stepFrame keys)

/-- R53, R122: inside a frame no step stops the model: every pattern of bytes at every pc is executed or faults, and a fault is a
next state (DEDUCED, log entry 5). No step of the machine ends in a fault outcome. -/
def Obligations.NothingInAFrameStopsTheMachine : Prop :=
  (∀ s : State, s.frame ≠ none → ∃ t, step s = .next t) ∧ (∀ (s : State) (e : Fault), step s ≠ .fault e)

/-- R44, R131: between commands the core is idle and `M` does not change, nor anything else, for any number of steps (of
the model, log entry 2). -/
def Obligations.IdleMachineIsStill : Prop :=
  ∀ (s : State) (n : Nat), s.frame = none → s.pending = [] → run n s = .next s

/-- R44, R95, R65, R135: what can change a byte of memory, over all steps: the target of a COPY (which becomes the source byte), a
key byte at the start of a frame, the image of a LOAD_ROM (any byte if it is too large, R66), a RESET (to 0x00). -/
def Obligations.MemoryChangesOnlyAs : Prop :=
  ∀ (s t : State) (a : Nat), step s = .next t → t.mem.read a ≠ s.mem.read a →
    (∃ f, s.frame = some f ∧ a = (targetFieldIn s.mem f.pc).toNat ∧ a < s.cap ∧
      t.mem.read a = s.mem.read (sourceFieldIn s.mem f.pc).toNat) ∨
    (s.frame = none ∧ ∃ rest,
      (∃ keys, s.pending = .stepFrame keys :: rest ∧ a < 2) ∨
      (∃ rom, s.pending = .loadRom rom :: rest ∧ (a < rom.length ∨ s.cap < rom.length)) ∨
      (s.pending = .reset :: rest ∧ t.mem.read a = 0))

/-! ## Invariants -/

/-- Every step keeps the invariant: the memory canonical and inside CAPACITY, a frame only in RUNNING, FAULTED exactly with an error
result, a pixel buffer of 65536 pixels. The invariant is the model's own (State.Inv). -/
def Obligations.StepKeepsInvariant : Prop :=
  ∀ s t : State, s.Inv → step s = .next t → t.Inv

/-- The machine after RESET meets the invariant, at either CAPACITY, and so does what stands before the first RESET, with any
commands to come. The invariant is the model's own; what stands before the first RESET is its choice (log entry 18). -/
def Obligations.ResetMeetsInvariant : Prop :=
  State.reset.Inv ∧
  ∀ (c : Config.Capacity) (cmds : List Command),
    State.Inv { State.resetWith c with pending := cmds } ∧ State.Inv { State.uncreated c with pending := cmds }

/-- R5: CAPACITY is fixed for the life of the machine: no step changes it (that it is a field of State is the model's choice, log
entry 1). -/
def Obligations.CapacityNeverChanges : Prop :=
  ∀ s t : State, step s = .next t → t.capacity = s.capacity

/-- R54: an instruction placed where the next one is fetched is the one the next step runs, whatever state it is placed in. The
placing (State.withFetchWord) is the model's own stand-in for the load of a program (log entry 17). -/
def Obligations.PlacedInstructionRunsNext : Prop :=
  ∀ (s : State) (nbits w : Nat) (i : Instr), decodeTableWord nbits w = some i →
    step (s.withFetchWord nbits w) = mapNext State.endIteration (exec i (s.withFetchWord nbits w))
end

