-- ==== Sys2Proof/Laws/Decode.lean ====
section
/-! SUPPORT. The laws of the byte order and of the encoder's shape. -/

namespace Sys2Proof

theorem foldBytes_append (xs : List Byte) (b : Byte) : foldBytes (xs ++ [b]) = foldBytes xs * 256 + b.toNat := by
  have h := Nat.shiftLeft_add_eq_or_of_lt (i := 8) b.isLt (foldBytes xs)
  simp only [foldBytes, List.foldl_append, List.foldl_cons, List.foldl_nil] at h ⊢
  rw [← h, Nat.shiftLeft_eq]

@[simp] theorem foldBytes_nil : foldBytes [] = 0 := rfl

@[simp] theorem foldBytes_one (b : Byte) : foldBytes [b] = b.toNat := by
  simpa using foldBytes_append [] b

theorem foldBytes_two (b0 b1 : Byte) : foldBytes [b0, b1] = b0.toNat * 256 + b1.toNat := by
  simpa using foldBytes_append [b0] b1

/-- Three bytes are the value the big-endian field has (R52). -/
theorem foldBytes_three (b0 b1 b2 : Byte) :
    foldBytes [b0, b1, b2] = b0.toNat * 65536 + b1.toNat * 256 + b2.toNat := by
  have h : foldBytes [b0, b1, b2] = foldBytes [b0, b1] * 256 + b2.toNat := foldBytes_append [b0, b1] b2
  rw [h, foldBytes_two]
  ring

/-- The fold of `n` bytes has `8 n` bits (R33). -/
theorem foldBytes_lt (bs : List Byte) : foldBytes bs < 2 ^ (8 * bs.length) := by
  induction bs using List.reverseRecOn with
  | nil => simp
  | append_singleton xs b ih =>
    rw [foldBytes_append, List.length_append, List.length_singleton, Nat.mul_add, Nat.pow_add]
    have := b.isLt
    omega

/-- A field is the value of its three bytes, with nothing dropped (R52). -/
theorem addrOfBytes_toNat (b0 b1 b2 : Byte) :
    (addrOfBytes b0 b1 b2).toNat = b0.toNat * 65536 + b1.toNat * 256 + b2.toNat := by
  have h := foldBytes_lt [b0, b1, b2]
  rw [addrOfBytes, BitVec.toNat_ofNat, Nat.mod_eq_of_lt (by simpa using h), foldBytes_three]

@[simp] theorem bytesOfAddr_length (a : Addr) : (bytesOfAddr a).length = 3 := rfl

@[simp] theorem recordOfWord_length (I : BitVec 72) : (recordOfWord I).length = Config.instrBytes := rfl

/-- The decoder on nine bytes (R50, R51). -/
theorem decode_nine (s0 s1 s2 t0 t1 t2 n0 n1 n2 : Byte) (rest : List Byte) :
    decode (s0 :: s1 :: s2 :: t0 :: t1 :: t2 :: n0 :: n1 :: n2 :: rest) =
      .ok (.copy (addrOfBytes s0 s1 s2) (addrOfBytes t0 t1 t2) (addrOfBytes n0 n1 n2), rest) := rfl

/-- A list of nine bytes, written out. -/
theorem eq_nine_of_length {bs : List Byte} (h : bs.length = 9) :
    ∃ b0 b1 b2 b3 b4 b5 b6 b7 b8, bs = [b0, b1, b2, b3, b4, b5, b6, b7, b8] := by
  match bs, h with
  | [b0, b1, b2, b3, b4, b5, b6, b7, b8], _ => exact ⟨b0, b1, b2, b3, b4, b5, b6, b7, b8, rfl⟩

/-- A field built from three bytes gives those bytes back (R51). -/
theorem bytesOfAddr_addrOfBytes (b0 b1 b2 : Byte) : bytesOfAddr (addrOfBytes b0 b1 b2) = [b0, b1, b2] := by
  have h := addrOfBytes_toNat b0 b1 b2
  have h0 := b0.isLt
  have h1 := b1.isLt
  have h2 := b2.isLt
  simp only [bytesOfAddr, List.cons.injEq, and_true]
  refine ⟨?_, ?_, ?_⟩ <;> apply BitVec.eq_of_toNat_eq <;>
    simp only [BitVec.extractLsb'_toNat, h, Nat.shiftRight_eq_div_pow] <;> omega

/-- A field taken apart and put together again is itself (R51, R52). -/
theorem addrOfBytes_extract (a : Addr) :
    addrOfBytes (a.extractLsb' 16 8) (a.extractLsb' 8 8) (a.extractLsb' 0 8) = a := by
  have ha := a.isLt
  apply BitVec.eq_of_toNat_eq
  rw [addrOfBytes_toNat]
  simp only [BitVec.extractLsb'_toNat, Nat.shiftRight_eq_div_pow]
  omega

end Sys2Proof
end

