-- ==== Sys2Proof/Laws/Memory.lean ====
section
/-! SUPPORT. The laws of the memory operations: a read after a write, and the canonical form, which every operation keeps. -/

namespace Sys2Proof.Machine

@[simp] theorem Memory.read_nil (a : Nat) : Memory.read [] a = 0 := rfl

theorem Memory.read_clear (m : Memory) (a b : Nat) :
    (Memory.clear m a).read b = if b = a then 0 else m.read b := by
  induction m with
  | nil => simp [Memory.clear]
  | cons c m ih =>
    obtain ⟨k, w⟩ := c
    simp only [Memory.clear]
    split
    · subst_vars
      rw [ih]
      split
      · rfl
      · simp [Memory.read, Ne.symm ‹_›]
    · by_cases hb : b = a
      · subst hb; simp_all [Memory.read]
      · by_cases hk : k = b <;> simp_all [Memory.read]

theorem Memory.read_put (m : Memory) (a b : Nat) (v : Byte) :
    (Memory.put m a v).read b = if b = a then v else m.read b := by
  induction m with
  | nil => simp [Memory.put, Memory.read, eq_comm]
  | cons c m ih =>
    obtain ⟨k, w⟩ := c
    simp only [Memory.put]
    split
    · simp [Memory.read, eq_comm]
    · split
      · subst_vars
        by_cases hb : b = k
        · simp [Memory.read, hb]
        · simp [Memory.read, hb, Ne.symm hb]
      · by_cases hb : b = a
        · subst hb; simp_all [Memory.read]
          intro h; omega
        · by_cases hk : k = b <;> simp_all [Memory.read]

/-- A read after a write gives the value written at its address and leaves every other address alone (R32). -/
@[simp] theorem Memory.read_write (m : Memory) (a b : Nat) (v : Byte) :
    (m.write a v).read b = if b = a then v else m.read b := by
  unfold Memory.write
  split
  · rw [Memory.read_clear]; simp_all
  · exact Memory.read_put m a b v

theorem Memory.read_write_self (m : Memory) (a : Nat) (v : Byte) : (m.write a v).read a = v := by simp

theorem Memory.read_write_of_ne {a b : Nat} (m : Memory) (v : Byte) (h : b ≠ a) : (m.write a v).read b = m.read b := by
  simp [h]

/-- A cell after bytes were stored from `a` on: the byte stored there, or what it held (R65). -/
theorem Memory.read_writeBytes (bs : List Byte) (m : Memory) (a b : Nat) :
    (m.writeBytes a bs).read b = if h : a ≤ b ∧ b - a < bs.length then bs[b - a]'h.2 else m.read b := by
  induction bs generalizing m a with
  | nil => simp [Memory.writeBytes]
  | cons v bs ih =>
    rw [Memory.writeBytes, ih]
    by_cases hb : b = a
    · subst hb
      rw [dif_neg (by omega)]
      simp
    · by_cases h1 : a + 1 ≤ b ∧ b - (a + 1) < bs.length
      · rw [dif_pos h1, dif_pos (by simp only [List.length_cons]; omega)]
        have : b - a = b - (a + 1) + 1 := by omega
        simp [this]
      · rw [dif_neg h1, dif_neg (by simp only [List.length_cons]; omega)]
        simp [hb]

/-! The canonical form. -/

theorem Memory.wf_cons {k : Nat} {v : Byte} {m : Memory} :
    Memory.wf ((k, v) :: m) = true ↔ v ≠ 0 ∧ (∀ c ∈ m, k < c.1) ∧ m.wf = true := by
  simp only [Memory.wf, Bool.and_eq_true, bne_iff_ne, List.all_eq_true, decide_eq_true_eq, and_assoc]

theorem Memory.mem_clear {m : Memory} {a : Nat} {c : Host.Cell} (h : c ∈ Memory.clear m a) : c ∈ m := by
  induction m with
  | nil => exact h
  | cons d m ih =>
    obtain ⟨k, w⟩ := d
    simp only [Memory.clear] at h
    split at h
    · exact List.mem_cons_of_mem _ (ih h)
    · rcases List.mem_cons.1 h with rfl | h
      · exact List.mem_cons_self
      · exact List.mem_cons_of_mem _ (ih h)

theorem Memory.mem_put {m : Memory} {a : Nat} {v : Byte} {c : Host.Cell} (h : c ∈ Memory.put m a v) :
    c = (a, v) ∨ c ∈ m := by
  induction m with
  | nil => exact .inl (by simpa [Memory.put] using h)
  | cons d m ih =>
    obtain ⟨k, w⟩ := d
    simp only [Memory.put] at h
    split at h
    · exact List.mem_cons.1 h
    · split at h
      · exact (List.mem_cons.1 h).imp id (List.mem_cons_of_mem _)
      · rcases List.mem_cons.1 h with rfl | h
        · exact .inr List.mem_cons_self
        · exact (ih h).imp id (List.mem_cons_of_mem _)

theorem Memory.wf_clear {m : Memory} (h : m.wf = true) (a : Nat) : (Memory.clear m a).wf = true := by
  induction m with
  | nil => exact h
  | cons d m ih =>
    obtain ⟨k, w⟩ := d
    obtain ⟨hv, hk, hm⟩ := Memory.wf_cons.1 h
    simp only [Memory.clear]
    split
    · exact ih hm
    · exact Memory.wf_cons.2 ⟨hv, fun c hc => hk c (Memory.mem_clear hc), ih hm⟩

theorem Memory.wf_put {m : Memory} (h : m.wf = true) (a : Nat) {v : Byte} (hv : v ≠ 0) :
    (Memory.put m a v).wf = true := by
  induction m with
  | nil => exact Memory.wf_cons.2 ⟨hv, by simp, rfl⟩
  | cons d m ih =>
    obtain ⟨k, w⟩ := d
    obtain ⟨hw, hk, hm⟩ := Memory.wf_cons.1 h
    simp only [Memory.put]
    split
    · refine Memory.wf_cons.2 ⟨hv, fun c hc => ?_, h⟩
      rcases List.mem_cons.1 hc with rfl | hc
      · assumption
      · exact lt_trans ‹_› (hk c hc)
    · split
      · subst_vars; exact Memory.wf_cons.2 ⟨hv, hk, hm⟩
      · refine Memory.wf_cons.2 ⟨hw, fun c hc => ?_, ih hm⟩
        rcases Memory.mem_put hc with rfl | hc
        · show k < a; omega
        · exact hk c hc

/-- A write keeps the canonical form. -/
theorem Memory.wf_write {m : Memory} (h : m.wf = true) (a : Nat) (v : Byte) : (m.write a v).wf = true := by
  unfold Memory.write
  split
  · exact Memory.wf_clear h a
  · exact Memory.wf_put h a ‹_›

theorem Memory.wf_writeBytes (bs : List Byte) {m : Memory} (h : m.wf = true) (a : Nat) : (m.writeBytes a bs).wf = true := by
  induction bs generalizing m a with
  | nil => exact h
  | cons b bs ih => exact ih (Memory.wf_write h a b) (a + 1)

theorem Memory.below_iff {m : Memory} {n : Nat} : m.below n = true ↔ ∀ c ∈ m, c.1 < n := by
  simp [Memory.below]

/-- A write below `n` keeps the listed addresses below `n`. -/
theorem Memory.below_write {m : Memory} {n a : Nat} (h : m.below n = true) (ha : a < n) (v : Byte) :
    (m.write a v).below n = true := by
  rw [Memory.below_iff] at *
  intro c hc
  unfold Memory.write at hc
  split at hc
  · exact h c (Memory.mem_clear hc)
  · rcases Memory.mem_put hc with rfl | hc
    · exact ha
    · exact h c hc

theorem Memory.below_writeBytes (bs : List Byte) {m : Memory} {n a : Nat} (h : m.below n = true) (ha : a + bs.length ≤ n) :
    (m.writeBytes a bs).below n = true := by
  induction bs generalizing m a with
  | nil => exact h
  | cons b bs ih =>
    simp only [List.length_cons] at ha
    exact ih (Memory.below_write h (by omega) b) (by omega)

theorem Memory.wf_filterMap (f : Nat → Byte) (l : List Nat) (h : l.Pairwise (· < ·)) :
    Memory.wf (l.filterMap fun a => if f a = 0 then none else some (a, f a)) = true := by
  induction l with
  | nil => rfl
  | cons a l ih =>
    obtain ⟨ha, hl⟩ := List.pairwise_cons.1 h
    by_cases hf : f a = 0
    · simpa [hf] using ih hl
    · simp only [List.filterMap_cons, if_neg hf]
      refine Memory.wf_cons.2 ⟨hf, fun c hc => ?_, ih hl⟩
      obtain ⟨b, hb, hbc⟩ := List.mem_filterMap.1 hc
      split at hbc
      · cases hbc
      · cases hbc; exact ha b hb

/-- The free memory image is in canonical form. -/
theorem Memory.wf_ofFn (n : Nat) (f : Nat → Byte) : (Memory.ofFn n f).wf = true :=
  Memory.wf_filterMap f _ List.pairwise_lt_range

theorem Memory.below_ofFn (n : Nat) (f : Nat → Byte) : (Memory.ofFn n f).below n = true := by
  rw [Memory.below_iff]
  intro c hc
  obtain ⟨b, hb, hbc⟩ := List.mem_filterMap.1 hc
  split at hbc
  · cases hbc
  · cases hbc; exact List.mem_range.1 hb

/-- In canonical form a cell that is not listed after `a` reads 0. -/
theorem Memory.read_eq_zero_of_lt {m : Memory} {a : Nat} (h : ∀ c ∈ m, a < c.1) : m.read a = 0 := by
  induction m with
  | nil => rfl
  | cons c m ih =>
    obtain ⟨k, w⟩ := c
    have hk : a < k := h (k, w) List.mem_cons_self
    rw [Memory.read, if_neg (by omega)]
    exact ih fun c hc => h c (List.mem_cons_of_mem _ hc)

/-- Writing the value a cell has already changes nothing, in canonical form. -/
theorem Memory.write_read_self {m : Memory} (h : m.wf = true) (a : Nat) : m.write a (m.read a) = m := by
  induction m with
  | nil => simp [Memory.write, Memory.clear]
  | cons c m ih =>
    obtain ⟨k, w⟩ := c
    obtain ⟨hw, hk, hm⟩ := Memory.wf_cons.1 h
    have ihm := ih hm
    rcases lt_trichotomy a k with hlt | rfl | hgt
    · have hz : Memory.read ((k, w) :: m) a = 0 :=
        Memory.read_eq_zero_of_lt fun c hc => by
          rcases List.mem_cons.1 hc with rfl | hc
          · exact hlt
          · exact lt_trans hlt (hk c hc)
      have hz' : Memory.read m a = 0 := Memory.read_eq_zero_of_lt fun c hc => lt_trans hlt (hk c hc)
      rw [hz, Memory.write, if_pos rfl, Memory.clear, if_neg (by omega)]
      rw [hz', Memory.write, if_pos rfl] at ihm
      rw [ihm]
    · rw [Memory.read, if_pos rfl, Memory.write, if_neg hw, Memory.put, if_neg (lt_irrefl _), if_pos rfl]
    · rw [Memory.read, if_neg (by omega)]
      unfold Memory.write at ihm ⊢
      split at ihm
      · rw [if_pos ‹_›, Memory.clear, if_neg (by omega), ihm]
      · rw [if_neg ‹_›, Memory.put, if_neg (by omega), if_neg (by omega), ihm]

end Sys2Proof.Machine
end

