-- ==== Sys2Proof/Laws/State.lean ====
section
/-! SUPPORT. One lemma per field per update of the state: the fields after a fault, after the operations that change one field, and
of the states the model names. -/

namespace Sys2Proof.Machine

section Raise
variable (e : Fault) (s : State)

@[simp] theorem State.raise_capacity : (s.raise e).capacity = s.capacity := rfl
@[simp] theorem State.raise_mem : (s.raise e).mem = s.mem := rfl
@[simp] theorem State.raise_status : (s.raise e).status = .faulted := rfl
@[simp] theorem State.raise_stage : (s.raise e).stage = s.stage := rfl
@[simp] theorem State.raise_frame : (s.raise e).frame = none := rfl
@[simp] theorem State.raise_pending : (s.raise e).pending = s.pending := rfl
@[simp] theorem State.raise_result : (s.raise e).result = some (.failed e) := rfl
@[simp] theorem State.raise_draws : (s.raise e).draws = s.draws := rfl

end Raise

section CloseRom
variable (s : State)

@[simp] theorem State.closeRom_capacity : s.closeRom.capacity = s.capacity := rfl
@[simp] theorem State.closeRom_mem : s.closeRom.mem = s.mem := rfl
@[simp] theorem State.closeRom_status : s.closeRom.status = s.status := rfl
@[simp] theorem State.closeRom_stage : s.closeRom.stage = .romClosed := rfl
@[simp] theorem State.closeRom_frame : s.closeRom.frame = s.frame := rfl
@[simp] theorem State.closeRom_pending : s.closeRom.pending = s.pending := rfl
@[simp] theorem State.closeRom_result : s.closeRom.result = s.result := rfl
@[simp] theorem State.closeRom_draws : s.closeRom.draws = s.draws := rfl

end CloseRom

section Reset
variable (c : Config.Capacity) (s : State)

@[simp] theorem State.resetWith_capacity : (State.resetWith c).capacity = c := rfl
@[simp] theorem State.resetWith_mem : (State.resetWith c).mem = [] := rfl
@[simp] theorem State.resetWith_status : (State.resetWith c).status = .running := rfl
@[simp] theorem State.resetWith_stage : (State.resetWith c).stage = .awaitingRom := rfl
@[simp] theorem State.resetWith_frame : (State.resetWith c).frame = none := rfl
@[simp] theorem State.resetWith_pending : (State.resetWith c).pending = [] := rfl
@[simp] theorem State.resetWith_result : (State.resetWith c).result = none := rfl
@[simp] theorem State.resetWith_draws : (State.resetWith c).draws = 0 := rfl

@[simp] theorem State.doReset_capacity : s.doReset.capacity = s.capacity := rfl
@[simp] theorem State.doReset_mem : s.doReset.mem = [] := rfl
@[simp] theorem State.doReset_status : s.doReset.status = .running := rfl
@[simp] theorem State.doReset_stage : s.doReset.stage = .awaitingRom := rfl
@[simp] theorem State.doReset_frame : s.doReset.frame = none := rfl
@[simp] theorem State.doReset_pending : s.doReset.pending = s.pending := rfl
@[simp] theorem State.doReset_result : s.doReset.result = none := rfl
@[simp] theorem State.doReset_draws : s.doReset.draws = s.draws := rfl

end Reset

/-- The iteration counter is 0 to 65535 (R14). -/
theorem Frame.iter_lt (f : Frame) : f.iter.val < 65536 := f.iter.isLt

section EndIteration
variable (s : State)

@[simp] theorem State.endIteration_capacity : s.endIteration.capacity = s.capacity := by
  unfold State.endIteration; split; · rfl
  split <;> rfl

@[simp] theorem State.endIteration_mem : s.endIteration.mem = s.mem := by
  unfold State.endIteration; split; · rfl
  split <;> rfl

@[simp] theorem State.endIteration_status : s.endIteration.status = s.status := by
  unfold State.endIteration; split; · rfl
  split <;> rfl

@[simp] theorem State.endIteration_stage : s.endIteration.stage = s.stage := by
  unfold State.endIteration; split; · rfl
  split <;> rfl

@[simp] theorem State.endIteration_pending : s.endIteration.pending = s.pending := by
  unfold State.endIteration; split; · rfl
  split <;> rfl

@[simp] theorem State.endIteration_draws : s.endIteration.draws = s.draws := by
  unfold State.endIteration; split; · rfl
  split <;> rfl

/-- After a fault there is no iteration to end (R89). -/
theorem State.endIteration_of_none (h : s.frame = none) : s.endIteration = s := by
  simp [State.endIteration, h]

/-- A completed COPY that was not the 65536th leads to the next iteration (R86). -/
theorem State.endIteration_of_more {f : Frame} (h : s.frame = some f) (hi : f.iter.val + 1 < Config.stepsPerFrame) :
    s.endIteration = { s with frame := some { f with iter := ⟨f.iter.val + 1, hi⟩ } } := by
  simp only [State.endIteration, h]
  rw [dif_pos hi]

/-- The 65536th completed COPY ends the command with `Ok(())` (R85 step 4, R87). -/
theorem State.endIteration_of_last {f : Frame} (h : s.frame = some f) (hi : ¬ f.iter.val + 1 < Config.stepsPerFrame) :
    s.endIteration = { s with frame := none, result := some .frameDone } := by
  simp only [State.endIteration, h]
  rw [dif_neg hi]

end EndIteration

end Sys2Proof.Machine
end

