-- ==== Sys2Proof/Laws/Ops.lean ====
section
/-! SUPPORT. One lemma per shared operation that says all it can do: the reads, the writes, the record fetch and the fields. -/

namespace Sys2Proof.Machine

variable (s : State)

/-! The reads (R31, R33). -/

theorem State.readByte_ok {a : Nat} (h : a < s.cap) : s.readByte a = .ok (s.mem.read a) := if_pos h

theorem State.readByte_error {a : Nat} (h : s.cap ≤ a) : s.readByte a = .error .addressOutOfRange :=
  if_neg (Nat.not_lt.2 h)

/-- In range the bytes are the cells, in ascending order. -/
theorem State.readBytes_ok {a n : Nat} (h : a + n ≤ s.cap ∨ n = 0) :
    s.readBytes a n = .ok ((List.range n).map fun k => s.mem.read (a + k)) := by
  induction n generalizing a with
  | zero => rfl
  | succ n ih =>
    have ha : a + (n + 1) ≤ s.cap := by omega
    rw [State.readBytes, s.readByte_ok (by omega), ih (a := a + 1) (by omega)]
    simp [List.range_succ_eq_map, Nat.add_comm, Nat.add_left_comm]

/-- A byte out of range makes the whole read raise (R33). -/
theorem State.readBytes_error {a n : Nat} (hn : 1 ≤ n) (h : s.cap < a + n) :
    s.readBytes a n = .error .addressOutOfRange := by
  induction n generalizing a with
  | zero => omega
  | succ n ih =>
    rw [State.readBytes]
    by_cases ha : a < s.cap
    · rw [s.readByte_ok ha, ih (a := a + 1) (by omega) (by omega)]
    · rw [s.readByte_error (by omega)]

theorem State.memRead_ok {a n : Nat} (h : a + n ≤ s.cap) :
    s.memRead a n = .ok (foldBytes ((List.range n).map fun k => s.mem.read (a + k))) := by
  rw [State.memRead, s.readBytes_ok (.inl h)]

theorem State.memRead_error {a n : Nat} (hn : 1 ≤ n) (h : s.cap < a + n) :
    s.memRead a n = .error .addressOutOfRange := by
  rw [State.memRead, s.readBytes_error hn h]

theorem State.memRead_three {a : Nat} (h : a + 3 ≤ s.cap) :
    s.memRead a 3 = .ok (foldBytes [s.mem.read a, s.mem.read (a + 1), s.mem.read (a + 2)]) := s.memRead_ok h

/-! The fields of a record (R52). -/

theorem State.sourceField_ok {pc : Addr} (h : pc.toNat + 3 ≤ s.cap) :
    s.sourceField pc =
      .ok (addrOfBytes (s.mem.read pc.toNat) (s.mem.read (pc.toNat + 1)) (s.mem.read (pc.toNat + 2))) := by
  rw [State.sourceField, s.memRead_three h]; rfl

theorem State.sourceField_error {pc : Addr} (h : s.cap < pc.toNat + 3) :
    s.sourceField pc = .error .addressOutOfRange := by
  rw [State.sourceField, s.memRead_error (by decide) h]; rfl

theorem State.targetField_ok {pc : Addr} (h : pc.toNat + 6 ≤ s.cap) :
    s.targetField pc =
      .ok (addrOfBytes (s.mem.read (pc.toNat + 3)) (s.mem.read (pc.toNat + 4)) (s.mem.read (pc.toNat + 5))) := by
  rw [State.targetField, s.memRead_three (by omega)]; rfl

theorem State.targetField_error {pc : Addr} (h : s.cap < pc.toNat + 6) :
    s.targetField pc = .error .addressOutOfRange := by
  rw [State.targetField, s.memRead_error (by decide) (by simpa [Config.addrBytes] using by omega)]; rfl

theorem State.nextField_ok {pc : Addr} (h : pc.toNat + 8 < s.cap) :
    s.nextField pc =
      .ok (addrOfBytes (s.mem.read (pc.toNat + 6)) (s.mem.read (pc.toNat + 7)) (s.mem.read (pc.toNat + 8))) := by
  rw [State.nextField, s.memRead_three (by omega)]; rfl

theorem State.nextField_error {pc : Addr} (h : s.cap ≤ pc.toNat + 8) :
    s.nextField pc = .error .addressOutOfRange := by
  rw [State.nextField, s.memRead_error (by decide) (by simpa [Config.addrBytes] using by omega)]; rfl

/-- The record at `pc` when its nine bytes lie in memory (R54). -/
theorem State.fetchInstr_some {pc : Addr} (h : pc.toNat + 8 < s.cap) :
    s.fetchInstr pc = some (.copy
      (addrOfBytes (s.mem.read pc.toNat) (s.mem.read (pc.toNat + 1)) (s.mem.read (pc.toNat + 2)))
      (addrOfBytes (s.mem.read (pc.toNat + 3)) (s.mem.read (pc.toNat + 4)) (s.mem.read (pc.toNat + 5)))
      (addrOfBytes (s.mem.read (pc.toNat + 6)) (s.mem.read (pc.toNat + 7)) (s.mem.read (pc.toNat + 8)))) := by
  rw [State.fetchInstr, s.readBytes_ok (.inl (by simpa [Config.instrBytes] using by omega))]
  rfl

theorem State.fetchInstr_none {pc : Addr} (h : s.cap ≤ pc.toNat + 8) : s.fetchInstr pc = none := by
  rw [State.fetchInstr, s.readBytes_error (by decide) (by simpa [Config.instrBytes] using by omega)]

/-- A record is fetched whole exactly when its last byte is in range, and then its fields are the memory's bytes. -/
theorem State.fetchInstr_eq_some {pc S T N : Addr} (h : s.fetchInstr pc = some (.copy S T N)) :
    pc.toNat + 8 < s.cap ∧
    S = addrOfBytes (s.mem.read pc.toNat) (s.mem.read (pc.toNat + 1)) (s.mem.read (pc.toNat + 2)) ∧
    T = addrOfBytes (s.mem.read (pc.toNat + 3)) (s.mem.read (pc.toNat + 4)) (s.mem.read (pc.toNat + 5)) ∧
    N = addrOfBytes (s.mem.read (pc.toNat + 6)) (s.mem.read (pc.toNat + 7)) (s.mem.read (pc.toNat + 8)) := by
  by_cases hc : pc.toNat + 8 < s.cap
  · rw [s.fetchInstr_some hc, Option.some.injEq, Instr.copy.injEq] at h
    exact ⟨hc, h.1.symm, h.2.1.symm, h.2.2.symm⟩
  · rw [s.fetchInstr_none (by omega)] at h
    cases h

/-! The writes (R32, R65, R73, R95). -/

theorem State.memWrite_ok {a : Nat} (h : a < s.cap) (v : Byte) :
    s.memWrite a v = .ok { s with mem := s.mem.write a v } := if_pos h

theorem State.memWrite_error {a : Nat} (h : s.cap ≤ a) (v : Byte) :
    s.memWrite a v = .error .addressOutOfRange := if_neg (Nat.not_lt.2 h)

/-- In range all bytes are stored and none raises (R65: "never faults, since a < len <= CAPACITY"). -/
theorem State.memWriteAll_ok {a : Nat} (bs : List Byte) (h : a + bs.length ≤ s.cap) :
    s.memWriteAll a bs = .ok { s with mem := s.mem.writeBytes a bs } := by
  induction bs generalizing a s with
  | nil => rfl
  | cons b bs ih =>
    simp only [List.length_cons] at h
    rw [State.memWriteAll, s.memWrite_ok (by omega)]
    simp only
    rw [ih { s with mem := s.mem.write a b } (show a + 1 + bs.length ≤ s.cap by omega)]
    rfl

/-- The memory after COPY's guarded write (R73). -/
def State.memAfterCopy (s : State) (T : Addr) (v : Byte) : Memory :=
  if T.toNat < s.cap then s.mem.write T.toNat v else s.mem

/-- The guarded write never raises: it stores the byte or does nothing (R73). -/
theorem State.writeTarget_ok (T : Addr) (v : Byte) :
    s.writeTarget T v = .ok { s with mem := s.memAfterCopy T v } := by
  unfold State.writeTarget State.memAfterCopy
  split
  · exact s.memWrite_ok ‹_› v
  · rfl

theorem State.read_memAfterCopy (T : Addr) (v : Byte) (a : Nat) :
    (s.memAfterCopy T v).read a = if T.toNat < s.cap ∧ a = T.toNat then v else s.mem.read a := by
  unfold State.memAfterCopy
  split
  · simp [*]
  · simp [*]

theorem State.wf_memAfterCopy (T : Addr) (v : Byte) (h : s.mem.wf = true) : (s.memAfterCopy T v).wf = true := by
  unfold State.memAfterCopy
  split
  · exact Memory.wf_write h _ _
  · exact h

theorem State.below_memAfterCopy (T : Addr) (v : Byte) (h : s.mem.below s.cap = true) :
    (s.memAfterCopy T v).below s.cap = true := by
  unfold State.memAfterCopy
  split
  · exact Memory.below_write h ‹_› _
  · exact h

theorem Config.eight_lt_bytes (c : Config.Capacity) : 8 < c.bytes := by cases c <;> decide

theorem State.eight_lt_cap : 8 < s.cap := Config.eight_lt_bytes s.capacity

/-- The key bytes are always in range, so WRITE_KEYS never raises (R95). -/
theorem State.writeKeys_ok (keys : KeyMask) :
    s.writeKeys keys = .ok
      { s with mem := (s.mem.write 0 (keys.extractLsb' 8 8)).write 1 (keys.extractLsb' 0 8) } := by
  have h := s.eight_lt_cap
  rw [State.writeKeys, s.memWrite_ok (show 0 < s.cap by omega)]
  exact State.memWrite_ok { s with mem := s.mem.write 0 (keys.extractLsb' 8 8) } (show 1 < s.cap by omega) _

end Sys2Proof.Machine
end

