-- ==== Sys2Proof/Laws/Commands.lean ====
section
/-! SUPPORT. One lemma per host command that says all it does, and one for which commands are refused. -/

namespace Sys2Proof.Machine

variable (s : State)

/-- The frame's start: the keys stored, PCVEC read, the frame at iteration 0 (R85 steps 1 and 2). The key bytes do not overlap
PCVEC, so its value is the one before the command. -/
theorem State.doStepFrame_eq (keys : KeyMask) :
    s.doStepFrame keys =
      { s with
        mem := (s.mem.write 0 (keys.extractLsb' 8 8)).write 1 (keys.extractLsb' 0 8)
        frame := some { pc := s.pcVec, iter := 0 }
        result := none } := by
  have h := s.eight_lt_cap
  rw [State.doStepFrame, s.writeKeys_ok]
  simp only
  rw [State.memRead_three { s with mem := (s.mem.write 0 (keys.extractLsb' 8 8)).write 1 (keys.extractLsb' 0 8) }
    (show Config.pcVecOffset + 3 ≤ s.cap by simp only [Config.pcVecOffset]; omega)]
  simp [State.pcVec, addrOfBytes, Config.pcVecOffset]

/-- An image that fits is stored from address 0 on (R65). -/
theorem State.doLoadRom_ok {rom : List Byte} (h : rom.length ≤ s.cap) :
    s.doLoadRom rom = { s with mem := s.mem.writeBytes 0 rom, result := some (.romLoaded rom.length) } := by
  rw [State.doLoadRom, if_neg (by omega), s.memWriteAll_ok rom (by omega)]

/-- An image that does not fit is RomTooLarge, and the memory is free (R66). -/
theorem State.doLoadRom_error {rom : List Byte} (h : s.cap < rom.length) :
    s.doLoadRom rom = State.raise .romTooLarge
      { s with mem := Memory.ofFn s.cap (Config.freeByte s.draws), draws := s.draws + 1 } := if_pos h

/-- The page base as a product (R107: "a multiplication by 65536"). -/
theorem pageBase_eq (sel : Nat) : pageBase sel = sel * 65536 := Nat.shiftLeft_eq sel 16

theorem State.pageSel_read : s.memRead Config.pageSelOffset 1 = .ok s.pageSel.toNat := by
  have h := s.eight_lt_cap
  rw [s.memRead_ok (show 5 + 1 ≤ s.cap by omega)]
  simp [State.pageSel]

theorem State.decodePage_ok {base : Nat} (h : base + Config.pageBytes ≤ s.cap) :
    s.decodePage base = .ok ((List.range Config.pageBytes).map fun i => palette (s.mem.read (base + i))) := by
  rw [State.decodePage, s.readBytes_ok (.inl h)]
  exact congrArg Except.ok (by rw [List.map_map]; rfl)

/-- A page that lies in memory is decoded pixel by pixel (R100). -/
theorem State.doDecodeFrame_ok (h : pageBase s.pageSel.toNat + Config.pageBytes ≤ s.cap) :
    s.doDecodeFrame =
      { s with result := some (.pixelBuffer
        ((List.range Config.pageBytes).map fun i => palette (s.mem.read (pageBase s.pageSel.toNat + i)))) } := by
  rw [State.doDecodeFrame, s.pageSel_read]
  simp only
  rw [if_neg (by omega), s.decodePage_ok h]

/-- A page that runs past the end of memory is AddressOutOfRange (R102). -/
theorem State.doDecodeFrame_error (h : s.cap < pageBase s.pageSel.toNat + Config.pageBytes) :
    s.doDecodeFrame = s.raise .addressOutOfRange := by
  rw [State.doDecodeFrame, s.pageSel_read]
  simp only
  rw [if_pos h]

theorem State.whenRunning_ready (k : Host.Outcome State Fault Refusal) (hc : s.stage ≠ .beforeReset)
    (hr : s.status = .running) : s.whenRunning k = k := by
  unfold State.whenRunning
  split <;> simp_all

theorem State.whenRunning_beforeReset (k : Host.Outcome State Fault Refusal) (h : s.stage = .beforeReset) :
    s.whenRunning k = .refused .commandBeforeReset := by
  unfold State.whenRunning
  split <;> simp_all

theorem State.whenRunning_faulted (k : Host.Outcome State Fault Refusal) (hc : s.stage ≠ .beforeReset)
    (h : s.status = .faulted) : s.whenRunning k = .refused .commandInFaulted := by
  unfold State.whenRunning
  split <;> simp_all

/-- What the acceptance of a command can answer, complete: RESET always, the others in RUNNING after a RESET, LOAD_ROM only
straight after RESET (R137), a refusal in every other case. -/
theorem State.issue_cases (c : Command) :
    (c = .reset ∧ s.issue c = .next s.doReset) ∨
    (s.stage ≠ .beforeReset ∧ s.status = .running ∧
      ((∃ rom, c = .loadRom rom ∧ s.stage = .awaitingRom ∧ s.issue c = .next (s.closeRom.doLoadRom rom)) ∨
       (∃ keys, c = .stepFrame keys ∧ s.issue c = .next (s.closeRom.doStepFrame keys)) ∨
       (c = .decodeFrame ∧ s.issue c = .next s.closeRom.doDecodeFrame))) ∨
    (c ≠ .reset ∧ s.stage = .beforeReset ∧ s.issue c = .refused .commandBeforeReset) ∨
    (c ≠ .reset ∧ s.stage ≠ .beforeReset ∧ s.status = .faulted ∧ s.issue c = .refused .commandInFaulted) ∨
    (s.stage ≠ .beforeReset ∧ s.stage ≠ .awaitingRom ∧ s.status = .running ∧ ∃ rom, c = .loadRom rom ∧
      s.issue c = .refused .romLoadClosed) := by
  rcases s with ⟨cap, m, st, sg, fr, p, r, d⟩
  cases c <;> cases st <;> cases sg <;> simp [State.issue, State.whenRunning, State.whenAwaitingRom]

end Sys2Proof.Machine
end

