-- ==== Sys2Proof/Laws/Copy.lean ====
section
/-! SUPPORT. What one COPY can do, said once: it completes, or it faults at one of its sub-steps. -/

namespace Sys2Proof.Machine

variable (s : State) (f : Frame)

/-- The source out of range: a fault with nothing written, whatever the target is (R74). -/
theorem State.copyAndJump_source_fault {S : Addr} (T : Addr) (h : s.cap ≤ S.toNat) :
    s.copyAndJump f S T = s.raise .addressOutOfRange := by
  rw [State.copyAndJump, s.readByte_error h]

/-- The next field out of range: a fault after the write (R71 row 4). -/
theorem State.copyAndJump_next_fault {S : Addr} (T : Addr) (h : S.toNat < s.cap) (hpc : s.cap ≤ f.pc.toNat + 8) :
    s.copyAndJump f S T =
      State.raise .addressOutOfRange { s with mem := s.memAfterCopy T (s.mem.read S.toNat) } := by
  rw [State.copyAndJump, s.readByte_ok h]
  simp only [State.writeTarget_ok]
  rw [State.nextField_error { s with mem := s.memAfterCopy T (s.mem.read S.toNat) } hpc]

/-- The COPY that completes (R70, R71). -/
theorem State.copyAndJump_done {S : Addr} (T : Addr) (h : S.toNat < s.cap) (hpc : f.pc.toNat + 8 < s.cap) :
    s.copyAndJump f S T =
      { s with
        mem := s.memAfterCopy T (s.mem.read S.toNat)
        frame := some { f with pc := nextFieldIn (s.memAfterCopy T (s.mem.read S.toNat)) f.pc } } := by
  rw [State.copyAndJump, s.readByte_ok h]
  simp only [State.writeTarget_ok]
  rw [State.nextField_ok { s with mem := s.memAfterCopy T (s.mem.read S.toNat) } hpc]
  rfl

/-- Inside a frame the meaning of COPY is its sub-steps c1, c2 and d at the frame's pc (R70). -/
theorem exec_copy_of_frame (S T N : Addr) (hf : s.frame = some f) :
    exec (.copy S T N) s = .next (s.copyAndJump f S T) := by
  simp only [exec, execCopy, hf]

/-- The whole COPY on a record that lies in memory is exec of the decoded instruction (R70). -/
theorem State.copyAtPc_of_fetch {i : Instr} (hf : s.frame = some f) (h : s.fetchInstr f.pc = some i) :
    exec i s = .next (s.copyAtPc f) := by
  obtain ⟨S, T, N⟩ := i
  obtain ⟨hc, rfl, rfl, rfl⟩ := s.fetchInstr_eq_some h
  simp only [exec, execCopy, hf]
  rw [State.copyAtPc, s.sourceField_ok (by omega)]
  simp only
  rw [s.targetField_ok (by omega)]

/-- A record whose source or target field does not lie in memory: a fault with nothing written (R71 rows 1 and 2). -/
theorem State.copyAtPc_field_fault (h : s.cap ≤ f.pc.toNat + 5) :
    s.copyAtPc f = s.raise .addressOutOfRange := by
  rw [State.copyAtPc]
  by_cases h3 : f.pc.toNat + 3 ≤ s.cap
  · rw [s.sourceField_ok h3]
    simp only
    rw [s.targetField_error (by omega)]
  · rw [s.sourceField_error (by omega)]

/-- With both fields in memory the COPY goes on to its sub-step c1 (R70). -/
theorem State.copyAtPc_of_fields (h : f.pc.toNat + 5 < s.cap) :
    s.copyAtPc f = s.copyAndJump f (sourceFieldIn s.mem f.pc) (targetFieldIn s.mem f.pc) := by
  rw [State.copyAtPc, s.sourceField_ok (by omega)]
  simp only
  rw [s.targetField_ok (by omega)]
  rfl

/-- What the COPY at `f.pc` does, complete: a fault with nothing written, a fault after the write, or the write and the jump
(R71, R72). -/
theorem State.copyAtPc_cases :
    (s.copyAtPc f = s.raise .addressOutOfRange ∧
      (s.cap ≤ f.pc.toNat + 5 ∨ s.cap ≤ (sourceFieldIn s.mem f.pc).toNat)) ∨
    (f.pc.toNat + 5 < s.cap ∧ (sourceFieldIn s.mem f.pc).toNat < s.cap ∧
      (s.cap ≤ f.pc.toNat + 8 ∧
        s.copyAtPc f = State.raise .addressOutOfRange
          { s with mem := s.memAfterCopy (targetFieldIn s.mem f.pc) (s.mem.read (sourceFieldIn s.mem f.pc).toNat) } ∨
      f.pc.toNat + 8 < s.cap ∧
        s.copyAtPc f =
          { s with
            mem := s.memAfterCopy (targetFieldIn s.mem f.pc) (s.mem.read (sourceFieldIn s.mem f.pc).toNat)
            frame := some { f with
              pc := nextFieldIn
                (s.memAfterCopy (targetFieldIn s.mem f.pc) (s.mem.read (sourceFieldIn s.mem f.pc).toNat)) f.pc } })) := by
  by_cases h5 : f.pc.toNat + 5 < s.cap
  · rw [s.copyAtPc_of_fields f h5]
    by_cases hS : (sourceFieldIn s.mem f.pc).toNat < s.cap
    · by_cases h8 : f.pc.toNat + 8 < s.cap
      · exact .inr ⟨h5, hS, .inr ⟨h8, s.copyAndJump_done f _ hS h8⟩⟩
      · exact .inr ⟨h5, hS, .inl ⟨by omega, s.copyAndJump_next_fault f _ hS (by omega)⟩⟩
    · exact .inl ⟨s.copyAndJump_source_fault f _ (by omega), .inr (by omega)⟩
  · exact .inl ⟨s.copyAtPc_field_fault f (by omega), .inl (by omega)⟩

end Sys2Proof.Machine
end

