-- ==== Sys2Proof/Laws/PerInstr.lean ====
section
/-! SUPPORT. Statements about the instruction as syntax, one lemma per constructor. -/

namespace Sys2Proof.Laws.RecordShape

/-- An instruction is well formed and its encoding is a record of nine bytes (spec/30_encoding.md R50, R53). -/
def Statement (i : Instr) : Prop :=
  i.wellFormed = true ∧ recordWellFormed (encode i) = true

theorem copy (S T N : Addr) : Statement (.copy S T N) := ⟨rfl, rfl⟩

end Sys2Proof.Laws.RecordShape
end

