-- ==== Sys2Proof/Laws/Step.lean ====
section
/-! SUPPORT. What one step can do, said once: a COPY of the running frame, a command, or nothing. -/

namespace Sys2Proof.Machine

variable (s : State)

/-- A step inside a frame is the whole COPY at the pc and the end of its iteration, whether its record is fetched whole or runs
past the end of memory (R70, R85 step 3). -/
theorem step_of_frame {f : Frame} (h : s.frame = some f) : step s = .next (s.copyAtPc f).endIteration := by
  simp only [step, h, State.copyStep]
  cases hi : s.fetchInstr f.pc with
  | none => rfl
  | some i =>
    simp only
    rw [s.copyAtPc_of_fetch f h hi]
    rfl

theorem step_of_idle (h : s.frame = none) : step s = s.idleStep := by simp only [step, h]

theorem step_of_no_command (h : s.frame = none) (hp : s.pending = []) : step s = .next s := by
  simp only [step, h, State.idleStep, hp]

theorem step_of_command {c : Command} {rest : List Command} (h : s.frame = none) (hp : s.pending = c :: rest) :
    step s = State.issue c { s with pending := rest } := by
  simp only [step, h, State.idleStep, hp]

/-- What a step that answers a next state did, complete. -/
theorem step_next_cases {s t : State} (h : step s = .next t) :
    (∃ f, s.frame = some f ∧ t = (s.copyAtPc f).endIteration) ∨
    (s.frame = none ∧ s.pending = [] ∧ t = s) ∨
    (s.frame = none ∧ ∃ c rest, s.pending = c :: rest ∧
      ((c = .reset ∧ t = State.doReset { s with pending := rest }) ∨
       (s.stage ≠ .beforeReset ∧ s.status = .running ∧
        ((∃ rom, c = .loadRom rom ∧ s.stage = .awaitingRom ∧
            t = State.doLoadRom rom (State.closeRom { s with pending := rest })) ∨
         (∃ keys, c = .stepFrame keys ∧ t = State.doStepFrame keys (State.closeRom { s with pending := rest })) ∨
         (c = .decodeFrame ∧ t = State.doDecodeFrame (State.closeRom { s with pending := rest })))))) := by
  rcases Option.eq_none_or_eq_some s.frame with hf | ⟨f, hf⟩
  · refine .inr ?_
    rcases hp : s.pending with _ | ⟨c, rest⟩
    · rw [step_of_no_command s hf hp, Host.Outcome.next.injEq] at h
      exact .inl ⟨hf, rfl, h.symm⟩
    · refine .inr ⟨hf, c, rest, rfl, ?_⟩
      rw [step_of_command s hf hp] at h
      rcases State.issue_cases { s with pending := rest } c with
        ⟨hc, hi⟩ | ⟨h1, h2, ⟨rom, hc, h3, hi⟩ | ⟨keys, hc, hi⟩ | ⟨hc, hi⟩⟩ | ⟨_, _, hi⟩ | ⟨_, _, _, hi⟩ | ⟨_, _, _, rom, _, hi⟩
      · rw [hi, Host.Outcome.next.injEq] at h
        exact .inl ⟨hc, h.symm⟩
      · rw [hi, Host.Outcome.next.injEq] at h
        exact .inr ⟨h1, h2, .inl ⟨rom, hc, h3, h.symm⟩⟩
      · rw [hi, Host.Outcome.next.injEq] at h
        exact .inr ⟨h1, h2, .inr (.inl ⟨keys, hc, h.symm⟩)⟩
      · rw [hi, Host.Outcome.next.injEq] at h
        exact .inr ⟨h1, h2, .inr (.inr ⟨hc, h.symm⟩)⟩
      · rw [hi] at h; cases h
      · rw [hi] at h; cases h
      · rw [hi] at h; cases h
  · rw [step_of_frame s hf, Host.Outcome.next.injEq] at h
    exact .inl ⟨f, hf, h.symm⟩

end Sys2Proof.Machine
end

