-- ==== Sys2Proof/Laws/Run.lean ====
section
/-! SUPPORT. Runs of several steps, and the step of a COPY that completes. -/

namespace Sys2Proof.Machine

@[simp] theorem run_zero (s : State) : run 0 s = .next s := rfl

theorem run_succ_of_next {s t : State} (n : Nat) (h : step s = .next t) : run (n + 1) s = run n t := by
  simp only [run, h]

theorem run_succ_of_refused {s : State} {r : Refusal} (n : Nat) (h : step s = .refused r) :
    run (n + 1) s = .refused r := by
  simp only [run, h]

theorem run_one (s : State) : run 1 s = step s := by
  rw [run]
  cases step s <;> rfl

/-- A run goes on from where a shorter one ended. -/
theorem run_add {m : Nat} {s t : State} (n : Nat) (h : run m s = .next t) : run (m + n) s = run n t := by
  induction m generalizing s with
  | zero =>
    rw [run_zero, Host.Outcome.next.injEq] at h
    rw [h, Nat.zero_add]
  | succ m ih =>
    rw [Nat.succ_add]
    rw [run] at h ⊢
    cases hs : step s with
    | next u => rw [hs] at h; exact ih h
    | fault e => rw [hs] at h; cases h
    | refused r => rw [hs] at h; cases h

/-- One more step of the host's run. -/
theorem core_run_succ (M : Host.Core) (n : Nat) (s : M.State) :
    M.run (n + 1) s =
      match M.step s with
      | .next t => M.run n t
      | .fault e => .fault e
      | .refused r => .refused r := rfl

/-- The model's run is the host's. -/
theorem run_eq_core_run (n : Nat) (s : State) : run n s = Host.Core.run Sys2Proof.core n s := by
  induction n generalizing s with
  | zero => rfl
  | succ n ih =>
    have hs : Host.Core.step Sys2Proof.core s = step s := rfl
    refine Eq.trans ?_ (core_run_succ Sys2Proof.core n s).symm
    rw [hs, run]
    cases step s with
    | next t => exact ih t
    | fault e => rfl
    | refused r => rfl

/-! The commands accepted by a machine that is ready. -/

/-- The pixels of the page PAGESEL names, as DECODE_FRAME gives them (R100). -/
def State.pagePixels (s : State) : List Pixel :=
  (List.range Config.pageBytes).map fun i => palette (s.mem.read (pageBase s.pageSel.toNat + i))

theorem State.pagePixels_length (s : State) : s.pagePixels.length = 65536 := by
  rw [State.pagePixels, List.length_map, List.length_range]

theorem step_of_reset {s : State} {rest : List Command} (hf : s.frame = none) (hp : s.pending = .reset :: rest) :
    step s = .next (State.doReset { s with pending := rest }) := step_of_command s hf hp

theorem step_of_stepFrame {s : State} {keys : KeyMask} {rest : List Command} (h : s.Ready)
    (hp : s.pending = .stepFrame keys :: rest) :
    step s = .next { s with
      pending := rest
      stage := .romClosed
      mem := (s.mem.write 0 (keys.extractLsb' 8 8)).write 1 (keys.extractLsb' 0 8)
      frame := some { pc := s.pcVec, iter := 0 }
      result := none } := by
  rw [step_of_command s h.idle hp, State.issue,
    State.whenRunning_ready { s with pending := rest } _ h.created h.running, State.doStepFrame_eq]
  rfl

theorem step_of_loadRom {s : State} {rom : List Byte} {rest : List Command} (h : s.Ready) (hs : s.stage = .awaitingRom)
    (hp : s.pending = .loadRom rom :: rest) :
    step s = .next (State.doLoadRom rom (State.closeRom { s with pending := rest })) := by
  rw [step_of_command s h.idle hp, State.issue,
    State.whenRunning_ready { s with pending := rest } _ h.created h.running, State.whenAwaitingRom, hs]

theorem step_of_loadRom_ok {s : State} {rom : List Byte} {rest : List Command} (h : s.Ready)
    (hs : s.stage = .awaitingRom) (hp : s.pending = .loadRom rom :: rest) (hl : rom.length ≤ s.cap) :
    step s = .next { s with
      pending := rest
      stage := .romClosed
      mem := s.mem.writeBytes 0 rom
      result := some (.romLoaded rom.length) } := by
  rw [step_of_loadRom h hs hp, State.doLoadRom_ok (State.closeRom { s with pending := rest }) hl]
  rfl

theorem step_of_loadRom_error {s : State} {rom : List Byte} {rest : List Command} (h : s.Ready)
    (hs : s.stage = .awaitingRom) (hp : s.pending = .loadRom rom :: rest) (hl : s.cap < rom.length) :
    step s = .next { s with
      pending := rest
      stage := .romClosed
      mem := Memory.ofFn s.cap (Config.freeByte s.draws)
      draws := s.draws + 1
      status := .faulted
      frame := none
      result := some (.failed .romTooLarge) } := by
  rw [step_of_loadRom h hs hp, State.doLoadRom_error (State.closeRom { s with pending := rest }) hl]
  rfl

theorem step_of_decodeFrame {s : State} {rest : List Command} (h : s.Ready) (hp : s.pending = .decodeFrame :: rest) :
    step s = .next (State.doDecodeFrame (State.closeRom { s with pending := rest })) := by
  rw [step_of_command s h.idle hp, State.issue,
    State.whenRunning_ready { s with pending := rest } _ h.created h.running]

theorem step_of_decodeFrame_ok {s : State} {rest : List Command} (h : s.Ready) (hp : s.pending = .decodeFrame :: rest)
    (hb : pageBase s.pageSel.toNat + 65536 ≤ s.cap) :
    step s = .next { s with
      pending := rest
      stage := .romClosed
      result := some (.pixelBuffer s.pagePixels) } := by
  rw [step_of_decodeFrame h hp, State.doDecodeFrame_ok (State.closeRom { s with pending := rest }) hb]
  rfl

theorem step_of_decodeFrame_error {s : State} {rest : List Command} (h : s.Ready)
    (hp : s.pending = .decodeFrame :: rest) (hb : s.cap < pageBase s.pageSel.toNat + 65536) :
    step s = .next { s with
      pending := rest
      stage := .romClosed
      status := .faulted
      frame := none
      result := some (.failed .addressOutOfRange) } := by
  rw [step_of_decodeFrame h hp, State.doDecodeFrame_error (State.closeRom { s with pending := rest }) hb]
  rfl

/-- The state after the copy and the jump of a COPY that completes, before its iteration ends (R70). -/
def State.afterCopy (s : State) (f : Frame) : State :=
  { s with
    mem := s.memAfterCopy (targetFieldIn s.mem f.pc) (s.mem.read (sourceFieldIn s.mem f.pc).toNat)
    frame := some { f with
      pc := nextFieldIn (s.memAfterCopy (targetFieldIn s.mem f.pc) (s.mem.read (sourceFieldIn s.mem f.pc).toNat)) f.pc } }

/-- The step of a COPY that completes (R70, R71). -/
theorem step_of_completes {s : State} {f : Frame} (hf : s.frame = some f)
    (hc : s.CopyCompletes f.pc (sourceFieldIn s.mem f.pc)) : step s = .next (s.afterCopy f).endIteration := by
  have h8 : f.pc.toNat + 8 < s.cap := hc.1
  rw [step_of_frame s hf, s.copyAtPc_of_fields f (by omega), s.copyAndJump_done f _ hc.2 h8]
  rfl

/-- What a step inside a frame does, complete: a fault with nothing written, a fault after the write, or the whole COPY and the end
of its iteration (R71, R72). -/
theorem step_of_frame_cases {s : State} {f : Frame} (hf : s.frame = some f) :
    (step s = .next (s.raise .addressOutOfRange) ∧
      (s.cap ≤ f.pc.toNat + 5 ∨ s.cap ≤ (sourceFieldIn s.mem f.pc).toNat)) ∨
    (f.pc.toNat + 5 < s.cap ∧ (sourceFieldIn s.mem f.pc).toNat < s.cap ∧ s.cap ≤ f.pc.toNat + 8 ∧
      step s = .next (State.raise .addressOutOfRange
        { s with mem := s.memAfterCopy (targetFieldIn s.mem f.pc) (s.mem.read (sourceFieldIn s.mem f.pc).toNat) })) ∨
    (f.pc.toNat + 8 < s.cap ∧ (sourceFieldIn s.mem f.pc).toNat < s.cap ∧
      step s = .next (s.afterCopy f).endIteration) := by
  rcases s.copyAtPc_cases f with ⟨h1, h2⟩ | ⟨h5, hS, ⟨h8, h1⟩ | ⟨h8, h1⟩⟩
  · exact .inl ⟨by rw [step_of_frame s hf, h1, State.endIteration_of_none _ rfl], h2⟩
  · exact .inr (.inl ⟨h5, hS, h8, by rw [step_of_frame s hf, h1, State.endIteration_of_none _ rfl]⟩)
  · exact .inr (.inr ⟨h8, hS, step_of_completes hf ⟨h8, hS⟩⟩)

/-- The end of the iteration of a COPY that completed: the 65536th ends the command, any other leads to the next one (R86, R87). -/
theorem State.endIteration_afterCopy_cases (s : State) (f : Frame) :
    ((s.afterCopy f).endIteration = { s.afterCopy f with frame := none, result := some .frameDone } ∧
      f.iter.val = 65535) ∨
    (∃ h : f.iter.val + 1 < 65536, (s.afterCopy f).endIteration =
      { s.afterCopy f with frame := some { pc := nextFieldIn (s.afterCopy f).mem f.pc, iter := ⟨_, h⟩ } }) := by
  have hi := f.iter_lt
  by_cases h : f.iter.val + 1 < 65536
  · exact .inr ⟨h, State.endIteration_of_more (s.afterCopy f)
      (f := { f with pc := nextFieldIn (s.afterCopy f).mem f.pc }) rfl h⟩
  · exact .inl ⟨State.endIteration_of_last (s.afterCopy f)
      (f := { f with pc := nextFieldIn (s.afterCopy f).mem f.pc }) rfl h, by omega⟩

/-- What a step that answers a next state did, with the next state written out: a COPY, nothing, RESET, LOAD_ROM of an image that
fits or of one too large, STEP_FRAME, DECODE_FRAME of a page that runs past the end or of one that does not. -/
theorem step_next_states {s t : State} (h : step s = .next t) :
    (∃ f, s.frame = some f ∧ t = (s.copyAtPc f).endIteration) ∨
    (s.frame = none ∧ s.pending = [] ∧ t = s) ∨
    (∃ rest, s.frame = none ∧ s.pending = .reset :: rest ∧ t = State.doReset { s with pending := rest }) ∨
    (∃ rom rest, s.Ready ∧ s.stage = .awaitingRom ∧ s.pending = .loadRom rom :: rest ∧ rom.length ≤ s.cap ∧
      t = { s with
        pending := rest
        stage := .romClosed
        mem := s.mem.writeBytes 0 rom
        result := some (.romLoaded rom.length) }) ∨
    (∃ rom rest, s.Ready ∧ s.stage = .awaitingRom ∧ s.pending = .loadRom rom :: rest ∧ s.cap < rom.length ∧
      t = { s with
        pending := rest
        stage := .romClosed
        mem := Memory.ofFn s.cap (Config.freeByte s.draws)
        draws := s.draws + 1
        status := .faulted
        frame := none
        result := some (.failed .romTooLarge) }) ∨
    (∃ keys rest, s.Ready ∧ s.pending = .stepFrame keys :: rest ∧
      t = { s with
        pending := rest
        stage := .romClosed
        mem := (s.mem.write 0 (keys.extractLsb' 8 8)).write 1 (keys.extractLsb' 0 8)
        frame := some { pc := s.pcVec, iter := 0 }
        result := none }) ∨
    (∃ rest, s.Ready ∧ s.pending = .decodeFrame :: rest ∧ s.cap < pageBase s.pageSel.toNat + 65536 ∧
      t = { s with
        pending := rest
        stage := .romClosed
        status := .faulted
        frame := none
        result := some (.failed .addressOutOfRange) }) ∨
    (∃ rest, s.Ready ∧ s.pending = .decodeFrame :: rest ∧ pageBase s.pageSel.toNat + 65536 ≤ s.cap ∧
      t = { s with
        pending := rest
        stage := .romClosed
        result := some (.pixelBuffer s.pagePixels) }) := by
  rcases step_next_cases h with ⟨f, hf, ht⟩ | ⟨hf, hp, ht⟩ |
    ⟨hf, c, rest, hp, ⟨rfl, ht⟩ | ⟨hb, hr, ⟨rom, rfl, hs, ht⟩ | ⟨keys, rfl, ht⟩ | ⟨rfl, ht⟩⟩⟩
  · exact .inl ⟨f, hf, ht⟩
  · exact .inr (.inl ⟨hf, hp, ht⟩)
  · exact .inr (.inr (.inl ⟨rest, hf, hp, ht⟩))
  · have hR : s.Ready := ⟨hf, hr, hb⟩
    by_cases hl : rom.length ≤ s.cap
    · rw [step_of_loadRom_ok hR hs hp hl, Host.Outcome.next.injEq] at h
      exact .inr (.inr (.inr (.inl ⟨rom, rest, hR, hs, hp, hl, h.symm⟩)))
    · rw [step_of_loadRom_error hR hs hp (by omega), Host.Outcome.next.injEq] at h
      exact .inr (.inr (.inr (.inr (.inl ⟨rom, rest, hR, hs, hp, by omega, h.symm⟩))))
  · have hR : s.Ready := ⟨hf, hr, hb⟩
    rw [step_of_stepFrame hR hp, Host.Outcome.next.injEq] at h
    exact .inr (.inr (.inr (.inr (.inr (.inl ⟨keys, rest, hR, hp, h.symm⟩)))))
  · have hR : s.Ready := ⟨hf, hr, hb⟩
    by_cases hl : s.cap < pageBase s.pageSel.toNat + 65536
    · rw [step_of_decodeFrame_error hR hp hl, Host.Outcome.next.injEq] at h
      exact .inr (.inr (.inr (.inr (.inr (.inr (.inl ⟨rest, hR, hp, hl, h.symm⟩))))))
    · rw [step_of_decodeFrame_ok hR hp (by omega), Host.Outcome.next.injEq] at h
      exact .inr (.inr (.inr (.inr (.inr (.inr (.inr ⟨rest, hR, hp, by omega, h.symm⟩))))))

end Sys2Proof.Machine
end

