-- ==== Sys2Proof/Tests/Slice0.lean ====
section
/-! SUPPORT. The model's own tests: what WellFormed refuses, the vectors of spec/95_test_vectors.md (their expected values are the
spec's), and for every obligation with hypotheses a concrete state and operands that meet all of them. -/

namespace Sys2Proof.Tests

open Sys2Proof.Machine

/-! ## Helpers -/

/-- The memory with these cells. -/
def cells (l : List (Nat × Byte)) : Memory := l.foldl (fun m c => m.write c.1 c.2) []

/-- A machine inside a frame at `pc`, iteration `i`, whose memory holds `bytes` at `pc` and `l` elsewhere. -/
def inFrame (c : Config.Capacity) (pc : Addr) (i : Fin Config.stepsPerFrame) (bytes : List Byte) (l : List (Nat × Byte)) :
    State :=
  { State.resetWith c with
    mem := (cells l).writeBytes pc.toNat bytes, stage := .romClosed, frame := some { pc := pc, iter := i } }

/-- A machine that is idle after RESET, with these commands to come and these cells. -/
def idle (c : Config.Capacity) (cmds : List Command) (l : List (Nat × Byte)) : State :=
  { State.resetWith c with pending := cmds, mem := cells l }

/-- An idle machine that is FAULTED. -/
def faulted (cmds : List Command) : State :=
  State.raise .addressOutOfRange { State.resetWith .short with pending := cmds, stage := .romClosed }

/-- The next state, if the outcome is one. -/
def nextOf : Host.Outcome State Fault Refusal → Option State
  | .next t => some t
  | _ => none

/-- The refusal, if the outcome is one. -/
def refusalOf : Host.Outcome State Fault Refusal → Option Refusal
  | .refused r => some r
  | _ => none

theorem exists_next_of_isSome {o : Host.Outcome State Fault Refusal} (h : (nextOf o).isSome = true) : ∃ t, o = .next t := by
  cases o with
  | next t => exact ⟨t, rfl⟩
  | fault e => cases h
  | refused r => cases h

/-- The pc after one step, the byte at `a`, the status. -/
def seen (s : State) (a : Nat) : Option (Option Addr × Byte × Status) :=
  (nextOf (step s)).map fun t => (t.frame.map Frame.pc, t.mem.read a, t.status)

/-- V12a: COPY 0x40, 0x41, 0x20 at 0x10, `M[40] = D7`. -/
def v12a (c : Config.Capacity) (i : Fin Config.stepsPerFrame) : State :=
  inFrame c 0x10 i [0, 0, 0x40, 0, 0, 0x41, 0, 0, 0x20] [(0x40, 0xD7)]

/-! ## Well-formedness and decoding -/

/-- A record of eight bytes, and one of ten, is refused; a record of nine is not (R50). -/
theorem test_wellFormed_refuses_wrong_lengths :
    recordWellFormed [1, 2, 3, 4, 5, 6, 7, 8] = false ∧
    recordWellFormed [1, 2, 3, 4, 5, 6, 7, 8, 9, 10] = false ∧
    recordWellFormed [1, 2, 3, 4, 5, 6, 7, 8, 9] = true := by decide

/-- The decoder refuses a truncated record by name, and leaves the bytes after a whole one (R50, R55). -/
theorem test_decode_truncated :
    decode [1, 2, 3, 4, 5, 6, 7, 8] = .error .truncated ∧
    decode [1, 2, 3, 4, 5, 6, 7, 8, 9, 10] = .ok (.copy 0x010203 0x040506 0x070809, [10]) := ⟨rfl, rfl⟩

/-- V11, and the row's number: bit 71 is bit 7 of the byte at pc (R8). -/
theorem test_decode_copy_word :
    decodeTableWord 72 0x123456789ABCDEF012 = some (.copy 0x123456 0x789ABC 0xDEF012) ∧
    decodeTableWord 72 0 = some (.copy 0 0 0) ∧
    encode (.copy 0x123456 0x789ABC 0xDEF012) = [0x12, 0x34, 0x56, 0x78, 0x9A, 0xBC, 0xDE, 0xF0, 0x12] := by decide

/-- A word placed in the machine right after RESET is run by the very next step. -/
theorem test_placed_word_runs :
    (nextOf (step (State.reset.withFetchWord 72 0x000008000041000020))).map
      (fun t => (t.frame.map Frame.pc, t.mem.read 0x41)) = some (some 0x20, 0x20) := by decide

/-! ## COPY: the spec's vectors -/

/-- V12a, V12b, V12, V13, V14 at both values of CAPACITY, V15, V16, V18. -/
theorem test_copy_vectors :
    ∀ v ∈ ([
      ((v12a .short 0), 0x41, some (some 0x20, 0xD7, .running)),
      ((inFrame .short 0x10 0 [0, 0, 0x40, 0, 0, 0x40, 0, 0, 0x20] [(0x40, 0xD7)]), 0x40, some (some 0x20, 0xD7, .running)),
      ((inFrame .short 0x10 0 [0, 0, 0x40, 0xFF, 0xFF, 0xFF, 0, 0, 0x20] [(0x40, 0x7B)]), 0xFFFFFF,
        some (some 0x20, 0, .running)),
      ((inFrame .full 0x10 0 [0, 0, 0x40, 0xFF, 0xFF, 0xFF, 0, 0, 0x20] [(0x40, 0x7B)]), 0xFFFFFF,
        some (some 0x20, 0x7B, .running)),
      ((inFrame .short 0x10 0 [0xFF, 0xFF, 0xFF, 0xFF, 0xFF, 0xFF, 0, 0, 0x10] []), 0, some (none, 0, .faulted)),
      ((inFrame .full 0x10 0 [0xFF, 0xFF, 0xFF, 0xFF, 0xFF, 0xFF, 0, 0, 0x10] []), 0, some (some 0x10, 0, .running)),
      ((inFrame .short 0x10 0 [0xFF, 0xFF, 0xFF, 0, 0, 0x41, 0, 0, 0x20] [(0x41, 0x55)]), 0x41, some (none, 0x55, .faulted)),
      ((inFrame .full 0x10 0 [0xFF, 0xFF, 0xFF, 0, 0, 0x41, 0, 0, 0x20] [(0x41, 0x55)]), 0x41, some (some 0x20, 0, .running)),
      ((inFrame .short 0x10 0 [0, 0, 0x40, 0, 0, 0x18, 0, 0, 0x20] [(0x40, 0x30)]), 0x18, some (some 0x30, 0x30, .running)),
      ((inFrame .short 0x10 0 [0, 0, 0x40, 0, 0, 0x12, 0, 0, 0x20] [(0x40, 0x41)]), 0x12, some (some 0x20, 0x41, .running)),
      ((inFrame .short 0x10 0 [0, 0, 0x40, 0, 0, 0x05, 0, 0, 0x10] [(0x40, 1)]), 5, some (some 0x10, 1, .running))] :
        List (State × Nat × Option (Option Addr × Byte × Status))),
      seen v.1 v.2.1 = v.2.2 := by
  decide

/-- V19, with the source field's bytes making `S = 0`, `T = 9` where they lie in memory and `M[0] = AB`, so that the write shows: the
pc of the table, and whether the write was done before the fault. -/
theorem test_copy_near_the_top :
    ∀ v ∈ ([
      ((inFrame .short 0xFFFFF6 0 [0, 0, 0, 0, 0, 9] [(0, 0xAB)]), 9, some (some 0, 0xAB, .running)),
      ((inFrame .short 0xFFFFF7 0 [0, 0, 0, 0, 0, 9] [(0, 0xAB)]), 9, some (none, 0xAB, .faulted)),
      ((inFrame .full 0xFFFFF7 0 [0, 0, 0, 0, 0, 9] [(0, 0xAB)]), 9, some (some 0, 0xAB, .running)),
      ((inFrame .short 0xFFFFF8 0 [0, 0, 0, 0, 0, 9] [(0, 0xAB)]), 9, some (none, 0xAB, .faulted)),
      ((inFrame .full 0xFFFFFA 0 [0, 0, 0, 0, 0, 9] [(0, 0xAB)]), 9, some (none, 0xAB, .faulted)),
      ((inFrame .short 0xFFFFFA 0 [0, 0, 0, 0, 0] [(0, 0xAB)]), 9, some (none, 0, .faulted)),
      ((inFrame .full 0xFFFFFB 0 [0, 0, 0, 0, 0] [(0, 0xAB)]), 9, some (none, 0, .faulted)),
      ((inFrame .short 0xFFFFFD 0 [0, 0] [(0, 0xAB)]), 9, some (none, 0, .faulted))] :
        List (State × Nat × Option (Option Addr × Byte × Status))),
      seen v.1 v.2.1 = v.2.2 := by
  decide

/-! ## The primitives and the commands: the spec's vectors -/

/-- V1 and V9: the fold, and reads at the end of memory. -/
theorem test_memRead_vectors :
    (idle .short [] [(0, 0x12), (1, 0x34), (2, 0x56), (3, 0x78), (4, 0x90), (5, 0xAB)]).memRead 0 2 = .ok 0x1234 ∧
    (idle .short [] [(0, 0x12), (1, 0x34), (2, 0x56), (3, 0x78), (4, 0x90), (5, 0xAB)]).memRead 2 3 = .ok 0x567890 ∧
    (idle .short [] [(0xFFFFFE, 0xAB)]).memRead 0xFFFFFC 3 = .ok 0xAB ∧
    (idle .short [] [(0xFFFFFE, 0xAB)]).memRead 0xFFFFFD 3 = .error .addressOutOfRange ∧
    (idle .full [] [(0xFFFFFF, 0xAB)]).memRead 0xFFFFFD 3 = .ok 0xAB ∧
    (idle .full [] [(0xFFFFFF, 0xAB)]).memRead 0x1000000 1 = .error .addressOutOfRange ∧
    (idle .short [] []).memRead 0x1000000 0 = .ok 0 := ⟨rfl, rfl, rfl, rfl, rfl, rfl, rfl⟩

/-- V2 and V25: LOAD_ROM. -/
theorem test_loadRom :
    (nextOf (step (idle .short [.loadRom [1, 2, 3, 0xFF, 0]] []))).map (fun t => (t.mem, t.result, t.stage))
      = some ([(0, 1), (1, 2), (2, 3), (3, 0xFF)], some (.romLoaded 5), .romClosed) ∧
    (nextOf (step (idle .short [.loadRom []] []))).map (fun t => (t.mem, t.result)) = some ([], some (.romLoaded 0)) := by
  decide

/-- V3, V24, V30: STEP_FRAME(0x0402) on the empty machine writes 04 02, starts at PCVEC = 0, and the first COPY there wipes the high
key byte. -/
theorem test_stepFrame :
    (nextOf (step (idle .short [.stepFrame 0x0402] []))).map (fun t => (t.mem, t.frame))
      = some ([(0, 4), (1, 2)], some { pc := 0, iter := 0 }) ∧
    (nextOf (step (inFrame .short 0 0 [4, 2] []))).map (fun t => (t.mem, t.frame))
      = some ([(1, 2)], some { pc := 0, iter := 1 }) := by
  decide

/-- V31, K = 65536: the 65536th COPY, whose next field is 0xFFFFFF, completes the frame; one that cannot fetch it faults (R87). -/
theorem test_last_iteration :
    (nextOf (step (inFrame .short 0x10 65535 [0, 0, 0x40, 0, 0, 0x41, 0xFF, 0xFF, 0xFF] [(0x40, 0x7B)]))).map
      (fun t => (t.frame, t.result, t.mem.read 0x41)) = some (none, some .frameDone, 0x7B) ∧
    (nextOf (step (inFrame .short 0xFFFFF8 65535 [0, 0, 0x40, 0, 0, 0x41] [(0x40, 0x7B)]))).map
      (fun t => (t.frame, t.result, t.mem.read 0x41)) = some (none, some (.failed .addressOutOfRange), 0x7B) := by
  decide

/-- V21: the palette. -/
theorem test_palette :
    palette 0 = ⟨0, 0, 0⟩ ∧ palette 1 = ⟨0, 0, 51⟩ ∧ palette 6 = ⟨0, 51, 0⟩ ∧ palette 36 = ⟨51, 0, 0⟩ ∧
    palette 123 = ⟨153, 102, 153⟩ ∧ palette 210 = ⟨255, 255, 0⟩ ∧ palette 215 = ⟨255, 255, 255⟩ ∧
    palette 216 = ⟨0, 0, 0⟩ ∧ palette 217 = ⟨0, 0, 0⟩ ∧ palette 255 = ⟨0, 0, 0⟩ := by decide

/-- V22 and V23: page 0xFF faults at CAPACITY = 0xFFFFFF; the byte at 0x123456 is the pixel at (86, 52) of page 0x12. -/
theorem test_decodeFrame :
    (nextOf (step (idle .short [.decodeFrame] [(5, 0xFF)]))).map (fun t => (t.status, t.result))
      = some (.faulted, some (.failed .addressOutOfRange)) ∧
    pageBase 0x12 + 0x3456 = 0x123456 ∧ pixelColumn 0x3456 = 86 ∧ pixelRow 0x3456 = 52 := by decide

/-- P5: one pixel in page 1. -/
theorem test_one_pixel :
    ∃ t P, step (idle .short [.decodeFrame] [(5, 1), (0x010203, 0x7B)]) = .next t ∧ t.result = some (.pixelBuffer P) ∧
      P[0x0203]? = some ⟨153, 102, 153⟩ := by
  refine ⟨_, _, step_of_decodeFrame_ok ⟨rfl, rfl, by decide⟩ rfl (by decide), rfl, ?_⟩
  rw [State.pagePixels, List.getElem?_map, List.getElem?_range (by decide)]
  rfl

/-- R137: the orders outside the grammar, each refused by its name, and RESET out of FAULTED. -/
theorem test_command_order :
    refusalOf (step { State.uncreated .short with pending := [.stepFrame 0] }) = some .commandBeforeReset ∧
    (nextOf (step { State.uncreated .short with pending := [.reset] })) = some (State.resetWith .short) ∧
    refusalOf (step (faulted [.decodeFrame])) = some .commandInFaulted ∧
    (nextOf (step (faulted [.reset]))) = some (State.resetWith .short) ∧
    refusalOf (step { idle .short [.loadRom [1]] [] with stage := .romClosed }) = some .romLoadClosed := by decide

/-! ## Witnesses: the hypotheses of each obligation hold together somewhere, at the edges of their ranges -/

theorem ready_idle (c : Config.Capacity) (cmds : List Command) (l : List (Nat × Byte)) : (idle c cmds l).Ready :=
  ⟨rfl, rfl, nofun⟩

theorem inv_v12a (c : Config.Capacity) (i : Fin Config.stepsPerFrame) : (v12a c i).Inv where
  canonical := by show (v12a .short 0).mem.wf = true; decide
  inMemory := by
    show (v12a .short 0).mem.below c.bytes = true
    cases c <;> decide
  frameRuns := fun _ => ⟨rfl, rfl, rfl⟩
  faultShown := ⟨nofun, nofun⟩
  bufferWhole := nofun
  beforeReset := fun _ => rfl
  afterReset := nofun

theorem inv_idle (c : Config.Capacity) (cmds : List Command) : (idle c cmds []).Inv where
  canonical := rfl
  inMemory := rfl
  frameRuns := fun h => absurd rfl h
  faultShown := ⟨nofun, nofun⟩
  bufferWhole := nofun
  beforeReset := fun _ => rfl
  afterReset := fun _ => ⟨rfl, rfl⟩

theorem inv_faulted (cmds : List Command) : (faulted cmds).Inv where
  canonical := rfl
  inMemory := rfl
  frameRuns := fun h => absurd rfl h
  faultShown := ⟨fun _ => ⟨_, rfl⟩, fun _ => rfl⟩
  bufferWhole := nofun
  beforeReset := nofun
  afterReset := nofun

/-- EveryNineBytesAreOneCopy: nine bytes, and the edge of the other clause. -/
theorem test_witness_EveryNineBytesAreOneCopy :
    ([0xFF, 0xFF, 0xFF, 0xFF, 0xFF, 0xFF, 0xFF, 0xFF, 0xFF] : List Byte).length = 9 ∧
    ([1, 2, 3, 4, 5, 6, 7, 8] : List Byte).length < 9 := by decide

/-- FieldsAreBitRangesOfTheRecord, at the highest pc of each CAPACITY too. -/
theorem test_witness_FieldsAreBitRangesOfTheRecord :
    (v12a .short 0).memRead (0x10 : Addr).toNat 9 = .ok (0x000040000041000020 : BitVec 72).toNat ∧
    (idle .short [] []).memRead (0xFFFFF6 : Addr).toNat 9 = .ok (0 : BitVec 72).toNat ∧
    (idle .full [] []).memRead (0xFFFFF7 : Addr).toNat 9 = .ok (0 : BitVec 72).toNat := ⟨rfl, rfl, rfl⟩

/-- FieldsAreThreeByteReads: a record fetched whole, and a pc one too high for one. -/
theorem test_witness_FieldsAreThreeByteReads :
    (v12a .short 0).fetchInstr 0x10 = some (.copy 0x40 0x41 0x20) ∧
    (idle .short [] []).fetchInstr 0xFFFFF6 = some (.copy 0 0 0) ∧ (idle .short [] []).fetchInstr 0xFFFFF7 = none := by
  decide

/-- WriteThenReadBack: the last address in range and the first out of range. -/
theorem test_witness_WriteThenReadBack :
    (idle .short [] []).inRange 0xFFFFFE ∧ (idle .short [] []).cap ≤ 0xFFFFFF := by decide

/-- ResolverFoldsBigEndian: the clauses at the end of memory. -/
theorem test_witness_ResolverFoldsBigEndian :
    (1 ≤ 3 ∧ (idle .short [] []).cap < 0xFFFFFD + 3) ∧ ¬ (1 ≤ 3 ∧ (idle .short [] []).cap < 0xFFFFFC + 3) ∧
    ¬ (1 ≤ 0 ∧ (idle .short [] []).cap < 0x1000000 + 0) := by decide

/-- EqualReadsAreEqualMemories: two canonical memories that read alike, built in different orders. -/
theorem test_witness_EqualReadsAreEqualMemories :
    (cells [(1, 2), (0, 3)]).wf = true ∧ (cells [(0, 3), (1, 2), (7, 1), (7, 0)]).wf = true ∧
    ∀ a, (cells [(1, 2), (0, 3)]).read a = (cells [(0, 3), (1, 2), (7, 1), (7, 0)]).read a :=
  ⟨by decide, by decide, fun _ => rfl⟩

/-- CopyCompletesWithItsEffect, at the highest pc and source of each CAPACITY too. -/
theorem test_witness_CopyCompletesWithItsEffect :
    ((v12a .short 0).frame = some { pc := 0x10, iter := 0 } ∧ (v12a .short 0).CopyCompletes 0x10 0x40) ∧
    ((inFrame .short 0xFFFFF6 0 [] []).frame = some { pc := 0xFFFFF6, iter := 0 } ∧
      (inFrame .short 0xFFFFF6 0 [] []).CopyCompletes 0xFFFFF6 0xFFFFFE) ∧
    ((inFrame .full 0xFFFFF7 0 [] []).frame = some { pc := 0xFFFFF7, iter := 0 } ∧
      (inFrame .full 0xFFFFF7 0 [] []).CopyCompletes 0xFFFFF7 0xFFFFFF) := by decide

/-- CopyFrame: a completed COPY, one whose target and one whose source is out of range. -/
theorem test_witness_CopyFrame :
    (∃ t, exec (.copy 0x40 0x41 0x20) (v12a .short 0) = .next t) ∧ (v12a .short 0).CopyCompletes 0x10 0x40 ∧
    (∃ t, exec (.copy 0x40 0xFFFFFF 0x20) (v12a .short 0) = .next t) ∧ (v12a .short 0).cap ≤ (0xFFFFFF : Addr).toNat ∧
    (∃ t, exec (.copy 0xFFFFFF 0x41 0x20) (v12a .short 0) = .next t) :=
  ⟨⟨_, rfl⟩, by decide, ⟨_, rfl⟩, by decide, ⟨_, rfl⟩⟩

/-- CopyJumpsToItsNextField: a target elsewhere, and the nearest ones below and above the next field. -/
theorem test_witness_CopyJumpsToItsNextField :
    ((v12a .short 0).frame = some { pc := 0x10, iter := 0 } ∧
      (v12a .short 0).fetchInstr 0x10 = some (.copy 0x40 0x41 0x20) ∧ (v12a .short 0).inRange (0x40 : Addr).toNat ∧
      (0x10 : Addr).toNat + 8 < (0x41 : Addr).toNat) ∧
    ((inFrame .short 0x10 0 [0, 0, 0x40, 0, 0, 0x15, 0, 0, 0x20] []).fetchInstr 0x10 = some (.copy 0x40 0x15 0x20) ∧
      (0x15 : Addr).toNat < (0x10 : Addr).toNat + 6) ∧
    ((inFrame .short 0x10 0 [0, 0, 0x40, 0, 0, 0x19, 0, 0, 0x20] []).fetchInstr 0x10 = some (.copy 0x40 0x19 0x20) ∧
      (0x10 : Addr).toNat + 8 < (0x19 : Addr).toNat) := by decide

/-- CopyOntoItselfJumpsToTheNewNext: the first and last byte of the record, and both sides of the edge `k < 6`. -/
theorem test_witness_CopyOntoItselfJumpsToTheNewNext :
    ∀ k ∈ [0, 5, 6, 8],
      (inFrame .short 0x10 0 [0, 0, 0x40, 0, 0, BitVec.ofNat 8 (0x10 + k), 0, 0, 0x20] []).frame
        = some { pc := 0x10, iter := 0 } ∧
      (inFrame .short 0x10 0 [0, 0, 0x40, 0, 0, BitVec.ofNat 8 (0x10 + k), 0, 0, 0x20] []).fetchInstr 0x10
        = some (.copy 0x40 (BitVec.ofNat 24 (0x10 + k)) 0x20) ∧
      (inFrame .short 0x10 0 [0, 0, 0x40, 0, 0, BitVec.ofNat 8 (0x10 + k), 0, 0, 0x20] []).inRange (0x40 : Addr).toNat ∧
      k < 9 ∧ (BitVec.ofNat 24 (0x10 + k)).toNat = (0x10 : Addr).toNat + k := by decide

/-- SourceOutOfRangeAlwaysFaults and the second clause of TargetOutOfRangeIsSkipped. -/
theorem test_witness_SourceOutOfRangeAlwaysFaults :
    (v12a .short 0).frame = some { pc := 0x10, iter := 0 } ∧ (v12a .short 0).cap ≤ (0xFFFFFF : Addr).toNat := by decide

/-- TargetOutOfRangeIsSkipped, first clause; and the second for a next field out of range, at the first pc where it is, with the source
in range. -/
theorem test_witness_TargetOutOfRangeIsSkipped :
    (v12a .short 0).frame = some { pc := 0x10, iter := 0 } ∧ (v12a .short 0).cap ≤ (0xFFFFFF : Addr).toNat ∧
    (v12a .short 0).CopyCompletes 0x10 0x40 ∧
    (inFrame .short 0xFFFFF7 0 [] []).frame = some { pc := 0xFFFFF7, iter := 0 } ∧
    (inFrame .short 0xFFFFF7 0 [] []).cap ≤ (0xFFFFFF : Addr).toNat ∧
    (0x40 : Addr).toNat < (inFrame .short 0xFFFFF7 0 [] []).cap ∧
    (inFrame .short 0xFFFFF7 0 [] []).cap ≤ (0xFFFFF7 : Addr).toNat + 8 := by decide

/-- CopyFaultsInOrder: a pc for each row of R71's table at each CAPACITY, and a source for its row 3. -/
theorem test_witness_CopyFaultsInOrder :
    (State.resetWith .short).cap ≤ (0xFFFFFD : Addr).toNat + 2 ∧ (State.resetWith .short).cap ≤ (0xFFFFFA : Addr).toNat + 5 ∧
    ((0xFFFFF9 : Addr).toNat + 5 < (State.resetWith .short).cap ∧ (State.resetWith .short).cap ≤ (0xFFFFF9 : Addr).toNat + 8 ∧
      (sourceFieldIn [] 0xFFFFF9).toNat < (State.resetWith .short).cap) ∧
    ((0xFFFFF6 : Addr).toNat + 8 < (State.resetWith .short).cap) ∧
    (State.resetWith .full).cap ≤ (0xFFFFFB : Addr).toNat + 5 ∧
    ((0xFFFFFA : Addr).toNat + 5 < (State.resetWith .full).cap ∧ (State.resetWith .full).cap ≤ (0xFFFFFA : Addr).toNat + 8) ∧
    (0xFFFFF7 : Addr).toNat + 8 < (State.resetWith .full).cap ∧
    (State.resetWith .short).cap ≤
      (sourceFieldIn (inFrame .short 0x10 0 [0xFF, 0xFF, 0xFF] []).mem 0x10).toNat ∧
    (State.resetWith .short).capacity = .short ∧ (State.resetWith .full).capacity = .full := by decide

/-- StepRunsTheDecodedInstruction. -/
theorem test_witness_StepRunsTheDecodedInstruction :
    (v12a .short 0).frame = some { pc := 0x10, iter := 0 } ∧
    (v12a .short 0).readBytes (0x10 : Addr).toNat 9 = .ok [0, 0, 0x40, 0, 0, 0x41, 0, 0, 0x20] ∧
    decode [0, 0, 0x40, 0, 0, 0x41, 0, 0, 0x20] = .ok (.copy 0x40 0x41 0x20, []) ∧
    (Instr.copy 0x40 0x41 0x20).wellFormed = true := ⟨rfl, rfl, rfl, rfl⟩

/-- IterationsAreCounted: every iteration (its state differs in the counter alone), those of both clauses among them. -/
theorem test_witness_IterationsAreCounted :
    (∀ i : Fin Config.stepsPerFrame,
      (v12a .short i).frame = some { pc := 0x10, iter := i } ∧
      (v12a .short i).CopyCompletes 0x10 (sourceFieldIn (v12a .short i).mem 0x10)) ∧
    (65534 : Fin Config.stepsPerFrame).val + 1 < 65536 ∧ (65535 : Fin Config.stepsPerFrame).val = 65535 := by
  have h : (v12a .short 0).CopyCompletes 0x10 (sourceFieldIn (v12a .short 0).mem 0x10) := by decide
  exact ⟨fun _ => ⟨rfl, h⟩, by decide, by decide⟩

/-- StepFrameWritesKeysAndStartsAtPcVec and FrameRunsExactly65536Copies. -/
theorem test_witness_StepFrame :
    (idle .full [.stepFrame 0xFFFF, .decodeFrame] []).Ready ∧
    (idle .full [.stepFrame 0xFFFF, .decodeFrame] []).pending = .stepFrame 0xFFFF :: [.decodeFrame] :=
  ⟨ready_idle _ _ _, rfl⟩

/-- SameMemoryAndKeysSameResults: two machines that differ in their stage. -/
theorem test_witness_SameMemoryAndKeysSameResults :
    (idle .short [.stepFrame 1, .decodeFrame] []).Ready ∧
    State.Ready { idle .short [.stepFrame 1, .decodeFrame] [] with stage := .romClosed } ∧
    (∀ c ∈ [Command.stepFrame 1, .decodeFrame], ∀ rom, c ≠ .loadRom rom) ∧
    (idle .short [.stepFrame 1, .decodeFrame] []).pending = [Command.stepFrame 1, .decodeFrame] ∧
    (idle .short [.stepFrame 1, .decodeFrame] []).result = (idle .full [] []).result := by
  refine ⟨ready_idle _ _ _, ⟨rfl, rfl, nofun⟩, fun c hc rom h => ?_, rfl, rfl⟩
  subst h
  simp at hc

/-- RunningFrameIgnoresTheHost and NothingInAFrameStopsTheMachine. -/
theorem test_witness_RunningFrame :
    (v12a .short 65535).frame ≠ none ∧ ∃ t, step (v12a .short 65535) = .next t :=
  ⟨nofun, ⟨_, step_of_frame _ rfl⟩⟩

/-- SelfJumpSpinsToTheEndOfTheFrame: R56's halt, `here: COPY 0x000006, 0x000006, here`. -/
theorem test_witness_SelfJumpSpinsToTheEndOfTheFrame :
    (inFrame .short 0x30 7 [0, 0, 6, 0, 0, 6, 0, 0, 0x30] []).mem.wf = true ∧
    (inFrame .short 0x30 7 [0, 0, 6, 0, 0, 6, 0, 0, 0x30] []).frame = some { pc := 0x30, iter := 7 } ∧
    (inFrame .short 0x30 7 [0, 0, 6, 0, 0, 6, 0, 0, 0x30] []).fetchInstr 0x30 = some (.copy 6 6 0x30) ∧
    (inFrame .short 0x30 7 [0, 0, 6, 0, 0, 6, 0, 0, 0x30] []).inRange (6 : Addr).toNat := by decide

/-- EachKeyLandsInItsBit: the keys at both edges of both bytes. -/
theorem test_witness_EachKeyLandsInItsBit :
    (∀ k ∈ [0, 7, 8, 15], k < 16) ∧ ∃ t, (idle .short [] []).writeKeys 0x8181 = .ok t := ⟨by decide, _, rfl⟩

/-- ResetZeroesTheMachine: from RUNNING with memory and from FAULTED. -/
theorem test_witness_ResetZeroesTheMachine :
    ((idle .full [.reset] [(0, 1)]).frame = none ∧ (idle .full [.reset] [(0, 1)]).pending = .reset :: []) ∧
    ((faulted [.reset]).frame = none ∧ (faulted [.reset]).pending = .reset :: []) := ⟨⟨rfl, rfl⟩, rfl, rfl⟩

/-- LoadRomCopiesTheImage and the second clause of RomTooLargeOnlyFromLoadRom: images of CAPACITY and of CAPACITY + 1 bytes, accepted. -/
theorem test_witness_LoadRom (n : Nat) :
    (idle .short [.loadRom (List.replicate n 0x11)] []).Ready ∧
    (idle .short [.loadRom (List.replicate n 0x11)] []).stage = .awaitingRom ∧
    (idle .short [.loadRom (List.replicate n 0x11)] []).pending = .loadRom (List.replicate n 0x11) :: [] ∧
    (∃ t, step (idle .short [.loadRom (List.replicate n 0x11)] []) = .next t) ∧
    (n = 0xFFFFFF → (List.replicate n (0x11 : Byte)).length ≤ Config.Capacity.short.bytes) ∧
    (n = 0x1000000 → Config.Capacity.short.bytes < (List.replicate n (0x11 : Byte)).length) := by
  refine ⟨ready_idle _ _ _, rfl, rfl, ⟨_, step_of_loadRom (ready_idle _ _ _) rfl rfl⟩, fun h => ?_, fun h => ?_⟩ <;> rw [List.length_replicate, h] <;> decide

/-- RomTooLargeOnlyFromLoadRom, first clause: a step after which RomTooLarge is the result (V25, `len = CAP + 1`). -/
theorem test_witness_RomTooLargeOnlyFromLoadRom :
    ∃ rom t, (idle .short [.loadRom rom] []).Inv ∧ step (idle .short [.loadRom rom] []) = .next t ∧
      t.result = some (.failed .romTooLarge) ∧ t.status = .faulted := by
  refine ⟨List.replicate 0x1000000 0x11, _, inv_idle _ _,
    step_of_loadRom_error (ready_idle _ _ _) rfl rfl ?_, rfl, rfl⟩
  rw [List.length_replicate]
  decide

/-- DecodeFrameReturnsThePage and DecodeFrameChecksThePage: the last page that lies in memory and the one that does not. -/
theorem test_witness_DecodeFrame :
    (idle .short [.decodeFrame] [(5, 0xFE)]).Ready ∧
    (idle .short [.decodeFrame] [(5, 0xFE)]).pending = .decodeFrame :: [] ∧
    (idle .short [.decodeFrame] [(5, 0xFE)]).pageSel.toNat * 65536 + 65536 ≤ (idle .short [] []).cap ∧
    (idle .short [] []).cap < (idle .short [.decodeFrame] [(5, 0xFF)]).pageSel.toNat * 65536 + 65536 ∧
    (idle .full [.decodeFrame] [(5, 0xFF)]).pageSel.toNat * 65536 + 65536 ≤ (idle .full [] []).cap :=
  ⟨ready_idle _ _ _, rfl, by decide, by decide, by decide⟩

/-- PaletteIsTheColourCube and PixelAddressIsPageRowColumn: the edges of their clauses. -/
theorem test_witness_Palette_and_Pixel :
    (215 : Byte).toNat < 216 ∧ 216 ≤ (216 : Byte).toNat ∧ 65535 < 65536 ∧
    (0x12FFFF : Addr).extractLsb' 16 8 = (0x12 : Byte) := by decide

/-- DecodeFrameIsAPureRead: two machines with equal memory, and one asked twice. -/
theorem test_witness_DecodeFrameIsAPureRead :
    ((idle .short [.decodeFrame] []).Ready ∧ (idle .short [.decodeFrame, .reset] []).Ready ∧
      (idle .short [.decodeFrame] []).mem = (idle .short [.decodeFrame, .reset] []).mem) ∧
    ∃ t, step (idle .short [.decodeFrame, .decodeFrame] []) = .next t ∧ t.status = .running :=
  ⟨⟨ready_idle _ _ _, ready_idle _ _ _, rfl⟩,
    ⟨_, step_of_decodeFrame_ok (ready_idle _ _ _) rfl (by decide), rfl⟩⟩

/-- AddressOutOfRangeExactlyWhere, StepKeepsInvariant, CapacityNeverChanges: a step from a state that meets the invariant. -/
theorem test_witness_steps_from_the_invariant :
    (v12a .short 0).Inv ∧ (v12a .short 0).result ≠ some (.failed .addressOutOfRange) ∧
    (∃ t, step (v12a .short 0) = .next t) ∧
    (idle .short [.decodeFrame] []).Inv ∧ (idle .short [.decodeFrame] []).result ≠ some (.failed .addressOutOfRange) ∧
    ∃ t, step (idle .short [.decodeFrame] []) = .next t :=
  ⟨inv_v12a _ _, nofun, ⟨_, step_of_frame _ rfl⟩, inv_idle _ _, nofun,
    ⟨_, step_of_decodeFrame (ready_idle _ _ _) rfl⟩⟩

/-- CommandsAdvanceTheGrammar: a command of each kind, accepted (LOAD_ROM: test_witness_LoadRom). -/
theorem test_witness_CommandsAdvanceTheGrammar :
    ∀ c ∈ [Command.reset, .stepFrame 0xFFFF, .decodeFrame],
      (idle .full [c] []).frame = none ∧ (idle .full [c] []).pending = c :: [] ∧ ∃ t, step (idle .full [c] []) = .next t := by
  intro c hc
  simp only [List.mem_cons, List.not_mem_nil, or_false] at hc
  rcases hc with rfl | rfl | rfl <;> exact ⟨rfl, rfl, _, rfl⟩

/-- OnlyResetLeavesFaulted: a RESET and another command in FAULTED. -/
theorem test_witness_OnlyResetLeavesFaulted :
    (faulted [.reset]).Inv ∧ (faulted [.reset]).status = .faulted ∧ (∃ t, step (faulted [.reset]) = .next t) ∧
    (faulted [.stepFrame 0]).Inv ∧ (faulted [.stepFrame 0]).status = .faulted ∧
    (faulted [.stepFrame 0]).pending = .stepFrame 0 :: [] ∧ Command.stepFrame 0 ≠ .reset :=
  ⟨inv_faulted _, rfl, ⟨_, step_of_reset rfl rfl⟩, inv_faulted _, rfl, rfl, nofun⟩

/-- IdleMachineIsStill. -/
theorem test_witness_IdleMachineIsStill : State.reset.frame = none ∧ State.reset.pending = [] := ⟨rfl, rfl⟩

/-- MemoryChangesOnlyAs: a step after which a byte differs, for the COPY and for the start of a frame. -/
theorem test_witness_MemoryChangesOnlyAs :
    (nextOf (step (v12a .short 0))).map (fun t => decide (t.mem.read 0x41 ≠ (v12a .short 0).mem.read 0x41)) = some true ∧
    (nextOf (step (idle .short [.stepFrame 1] []))).map (fun t => decide (t.mem.read 1 ≠ 0)) = some true := by decide

/-- PlacedInstructionRunsNext. -/
theorem test_witness_PlacedInstructionRunsNext :
    decodeTableWord 72 0x000040000041000020 = some (.copy 0x40 0x41 0x20) := by decide

end Sys2Proof.Tests
end

section
/-! PROOFS for the statements of spec/00_scope.md: the record as one 72-bit word (R8, R51), and the fixed CAPACITY (R5). -/

/-! ## The record as one word -/

namespace Sys2Proof

/-- Byte lists of one length with one big-endian value are the same list. -/
theorem foldBytes_injective {xs ys : List Byte} (hlen : xs.length = ys.length)
    (h : foldBytes xs = foldBytes ys) : xs = ys := by
  induction xs using List.reverseRecOn generalizing ys with
  | nil => exact (List.eq_nil_of_length_eq_zero hlen.symm).symm
  | append_singleton xs b ih =>
    rcases List.eq_nil_or_concat' ys with rfl | ⟨ys, c, rfl⟩
    · simp at hlen
    · rw [foldBytes_append, foldBytes_append] at h
      have hb := b.isLt
      have hc := c.isLt
      have hlast : b = c := BitVec.eq_of_toNat_eq (by omega)
      have hinit : xs = ys := ih (by simpa using hlen) (by omega)
      rw [hlast, hinit]

/-- The first byte is the most significant one (R33). -/
theorem foldBytes_cons (b : Byte) (bs : List Byte) :
    foldBytes (b :: bs) = b.toNat * 256 ^ bs.length + foldBytes bs := by
  induction bs using List.reverseRecOn with
  | nil => simp
  | append_singleton xs c ih =>
    rw [← List.cons_append, foldBytes_append, ih, foldBytes_append, List.length_append, List.length_singleton]
    ring

/-- The nine bytes of a word, read big-endian, have the word's value (R8). -/
theorem foldBytes_recordOfWord (I : BitVec 72) : foldBytes (recordOfWord I) = I.toNat := by
  have hI := I.isLt
  simp only [recordOfWord, foldBytes_cons, foldBytes_nil, List.length_cons, List.length_nil,
    BitVec.extractLsb'_toNat, Nat.shiftRight_eq_div_pow]
  omega

/-- Three neighbouring bytes of a word make the 24-bit range they cover (R51). -/
theorem addrOfBytes_extractLsb' {w : Nat} (I : BitVec w) (p : Nat) :
    addrOfBytes (I.extractLsb' (p + 16) 8) (I.extractLsb' (p + 8) 8) (I.extractLsb' p 8) = I.extractLsb' p 24 := by
  apply BitVec.eq_of_toNat_eq
  rw [addrOfBytes_toNat]
  simp only [BitVec.extractLsb'_toNat, Nat.shiftRight_add]
  simp only [Nat.shiftRight_eq_div_pow _ 16, Nat.shiftRight_eq_div_pow _ 8]
  omega

/-- The instruction whose fields are the three 24-bit ranges of a 72-bit word: `S = I[71:48]`, `T = I[47:24]`, `N = I[23:0]`
(R51). -/
def instrOfWord (I : BitVec 72) : Instr :=
  .copy (I.extractLsb' 48 24) (I.extractLsb' 24 24) (I.extractLsb' 0 24)

/-- The record of a word decodes to the instruction of its three ranges, with nothing left over (R51). -/
theorem decode_recordOfWord (I : BitVec 72) : decode (recordOfWord I) = .ok (instrOfWord I, []) := by
  rw [recordOfWord, decode_nine, instrOfWord, ← addrOfBytes_extractLsb' I 48, ← addrOfBytes_extractLsb' I 24,
    ← addrOfBytes_extractLsb' I 0]

/-- The opcode table's number of a record is its word (log entry 16). -/
theorem decodeTableWord_toNat (I : BitVec 72) : decodeTableWord 72 I.toNat = some (instrOfWord I) := by
  have hrecord : recordOfTableWord 72 I.toNat = recordOfWord I := by
    rw [recordOfTableWord, Nat.mod_eq_of_lt I.isLt, BitVec.ofNat_toNat, BitVec.setWidth_eq]
  rw [decodeTableWord, hrecord, decode_recordOfWord]

end Sys2Proof

namespace Sys2Proof.Machine

/-- A read that succeeds is the fold of the bytes it read, and those are the cells (R33). -/
theorem State.readBytes_of_memRead {s : State} {a n v : Nat} (h : s.memRead a n = .ok v) :
    ∃ bs, s.readBytes a n = .ok bs ∧ bs = (List.range n).map (fun k => s.mem.read (a + k)) ∧ foldBytes bs = v := by
  by_cases hr : a + n ≤ s.cap ∨ n = 0
  · have hb := s.readBytes_ok hr
    rw [State.memRead, hb, Except.ok.injEq] at h
    exact ⟨_, hb, rfl, h⟩
  · rw [s.memRead_error (by omega) (by omega)] at h
    cases h

/-- The nine bytes `MemRead(pc, 9) = I` reads are the record of the word `I` (R8). -/
theorem State.readBytes_eq_recordOfWord {s : State} {a : Nat} {I : BitVec 72} (h : s.memRead a 9 = .ok I.toNat) :
    s.readBytes a 9 = .ok (recordOfWord I) ∧
      (List.range 9).map (fun k => s.mem.read (a + k)) = recordOfWord I := by
  obtain ⟨bs, hread, rfl, hfold⟩ := State.readBytes_of_memRead h
  have hbytes := foldBytes_injective (by simp) (hfold.trans (foldBytes_recordOfWord I).symm)
  exact ⟨hbytes ▸ hread, hbytes⟩

/-- What is fetched is what the nine bytes read at `pc` decode to (R54). -/
theorem State.fetchInstr_of_readBytes {s : State} {pc : Addr} {bs rest : List Byte} {i : Instr}
    (hread : s.readBytes pc.toNat 9 = .ok bs) (hdecode : decode bs = .ok (i, rest)) : s.fetchInstr pc = some i := by
  simp only [State.fetchInstr, hread, hdecode]

/-- Settles O4: equal big-endian values of nine bytes are equal bytes, so the record at `pc` is that of the word `I`. -/
theorem fieldsAreBitRangesOfTheRecord : Obligations.FieldsAreBitRangesOfTheRecord := by
  intro s pc I hI
  obtain ⟨hread, hcells⟩ := State.readBytes_eq_recordOfWord hI
  have hfetch : s.fetchInstr pc = some (instrOfWord I) :=
    State.fetchInstr_of_readBytes hread (decode_recordOfWord I)
  have hfirst : s.mem.read pc.toNat = I.extractLsb' 64 8 := congrArg (·.getD 0 0) hcells
  have hlast : s.mem.read (pc.toNat + 8) = I.extractLsb' 0 8 := congrArg (·.getD 8 0) hcells
  exact ⟨hfirst, hlast, hfetch, (decodeTableWord_toNat I).trans hfetch.symm⟩

/-- Settles O1: the three records are those of three words, whose bit ranges are the operands written out. -/
theorem specRecordsDecode : Obligations.SpecRecordsDecode :=
  ⟨decode_recordOfWord 0x123456789ABCDEF012, decode_recordOfWord 0, decode_recordOfWord 0xFFFFFFFFFFFFFFFFFF,
    decodeTableWord_toNat 0x123456789ABCDEF012⟩

/-! ## CAPACITY -/

/-- A COPY keeps CAPACITY, whether it completes or faults (R5). -/
@[simp] theorem State.copyAtPc_capacity (s : State) (f : Frame) : (s.copyAtPc f).capacity = s.capacity := by
  rcases s.copyAtPc_cases f with ⟨h, _⟩ | ⟨_, _, ⟨_, h⟩ | ⟨_, h⟩⟩
  · rw [h, State.raise_capacity]
  · rw [h, State.raise_capacity]
  · rw [h]

/-- Settles O42: a step is a COPY, nothing, or a command, and each builds its next state on the CAPACITY it found. -/
theorem capacityNeverChanges : Obligations.CapacityNeverChanges := by
  intro s t h
  rcases step_next_states h with ⟨f, _, rfl⟩ | ⟨_, _, rfl⟩ | ⟨_, _, _, rfl⟩ | ⟨_, _, _, _, _, _, rfl⟩ |
    ⟨_, _, _, _, _, _, rfl⟩ | ⟨_, _, _, _, rfl⟩ | ⟨_, _, _, _, rfl⟩ | ⟨_, _, _, _, rfl⟩
  case inl => rw [State.endIteration_capacity, State.copyAtPc_capacity]
  all_goals rfl

end Sys2Proof.Machine
end

section
/-! PROOFS for the statements of spec/10_state.md: the canonical memory (R10), RESET (R24), and the invariant of the machine (R20,
R106, R122, R137). -/

namespace Sys2Proof.Machine

/-! ## The canonical memory -/

/-- In canonical form the listed addresses strictly rise. -/
theorem Memory.pairwise_of_wf {m : Memory} (h : m.wf = true) : m.Pairwise (InvImage (· < ·) Prod.fst) := by
  induction m with
  | nil => exact .nil
  | cons c m ih =>
    obtain ⟨_, hk, hm⟩ := Memory.wf_cons.1 h
    exact .cons hk (ih hm)

/-- In canonical form the listed cells are those that read nonzero, each with the byte it reads. -/
theorem Memory.mem_iff_read {m : Memory} (h : m.wf = true) {a : Nat} {v : Byte} :
    (a, v) ∈ m ↔ v ≠ 0 ∧ m.read a = v := by
  induction m with
  | nil => exact ⟨nofun, fun ⟨hv, hread⟩ => absurd hread.symm hv⟩
  | cons c m ih =>
    obtain ⟨k, w⟩ := c
    obtain ⟨hw, hk, hm⟩ := Memory.wf_cons.1 h
    rw [List.mem_cons, Memory.read, ih hm]
    by_cases ha : k = a
    · subst ha
      have hrest : ¬(v ≠ 0 ∧ Memory.read m k = v) := fun ⟨hv, hread⟩ =>
        hv (hread.symm.trans (Memory.read_eq_zero_of_lt hk))
      rw [or_iff_left hrest, if_pos rfl]
      constructor
      · rintro ⟨⟩
        exact ⟨hw, rfl⟩
      · rintro ⟨-, rfl⟩
        rfl
    · simp [ha, Ne.symm ha]

/-- Settles O8: each memory lists exactly the cells that read nonzero, in strictly rising order, and the order leaves one list. -/
theorem equalReadsAreEqualMemories : Obligations.EqualReadsAreEqualMemories := by
  intro m₁ m₂ h₁ h₂ hread
  refine (Memory.pairwise_of_wf h₁).eq_of_mem_iff (Memory.pairwise_of_wf h₂) fun ⟨a, v⟩ => ?_
  rw [Memory.mem_iff_read h₁, Memory.mem_iff_read h₂, hread]

/-! ## RESET -/

/-- A memory that reads 0 everywhere holds KEYS, PCVEC and PAGESEL of 0 (R16, R17, R18). -/
theorem State.fields_eq_zero {s : State} (h : ∀ a, s.mem.read a = 0) :
    s.keysField = 0 ∧ s.pcVec = 0 ∧ s.pageSel = 0 := by
  simp only [State.keysField, State.pcVec, State.pageSel, h]
  decide

/-- Settles O25: the step is RESET, after which the memory lists no cell. -/
theorem resetZeroesTheMachine : Obligations.ResetZeroesTheMachine := by
  intro s rest hf hp
  have hzero : ∀ a, (State.doReset { s with pending := rest }).mem.read a = 0 := Memory.read_nil
  exact ⟨_, step_of_reset hf hp, hzero, rfl, rfl, State.fields_eq_zero hzero⟩

/-! ## The invariant -/

/-- A machine with all of memory 0x00, RUNNING and without frame or result meets the invariant, at any stage (R24, R135). -/
theorem State.inv_of_zeroed {s : State} (hm : s.mem = []) (hr : s.status = .running) (hf : s.frame = none)
    (hn : s.result = none) : s.Inv where
  canonical := by rw [hm]; rfl
  inMemory := by rw [hm]; rfl
  frameRuns := fun h => absurd hf h
  faultShown := by simp [hr, hn]
  bufferWhole := by simp [hn]
  beforeReset := fun _ => hn
  afterReset := fun _ => ⟨hn, hm⟩

/-- Settles O41: RESET and the state before it leave no cell listed, no frame and no result. -/
theorem resetMeetsInvariant : Obligations.ResetMeetsInvariant :=
  ⟨State.inv_of_zeroed rfl rfl rfl rfl,
    fun _ _ => ⟨State.inv_of_zeroed rfl rfl rfl rfl, State.inv_of_zeroed rfl rfl rfl rfl⟩⟩

/-- After the first frame command or LOAD_ROM a machine in RUNNING meets the invariant if its memory is canonical and inside
CAPACITY and its result is none while a frame runs, never an error, and a whole buffer if it is one (R20, R106, R137). -/
theorem State.inv_of_running {s : State} (hw : s.mem.wf = true) (hb : s.mem.below s.cap = true) (hr : s.status = .running)
    (hs : s.stage = .romClosed) (hf : s.frame ≠ none → s.result = none) (he : ∀ e, s.result ≠ some (.failed e))
    (hP : ∀ P, s.result = some (.pixelBuffer P) → P.length = Config.pageBytes) : s.Inv where
  canonical := hw
  inMemory := hb
  frameRuns := fun h => ⟨hr, hs, hf h⟩
  faultShown := by simp [hr, he]
  bufferWhole := hP
  beforeReset := by simp [hs]
  afterReset := by simp [hs]

/-- A fault of a command that closed the ROM loader gives the invariant, if the memory it leaves is canonical and inside CAPACITY
(R122). -/
theorem State.inv_raise {s : State} (e : Fault) (hw : s.mem.wf = true) (hb : s.mem.below s.cap = true)
    (hs : s.stage = .romClosed) : (s.raise e).Inv where
  canonical := hw
  inMemory := hb
  frameRuns := fun h => absurd rfl h
  faultShown := by simp
  bufferWhole := by simp
  beforeReset := by simp [hs]
  afterReset := by simp [hs]

/-- A COPY of the running frame keeps the invariant: a fault takes the frame and shows its error, a COPY that completes writes a
byte below CAPACITY, and only the last one ends the frame (R71, R72, R86, R87). -/
theorem State.Inv.step_of_frame {s t : State} {f : Frame} (hI : s.Inv) (hf : s.frame = some f) (h : step s = .next t) :
    t.Inv := by
  obtain ⟨hr, hs, hn⟩ := hI.frameRuns (by simp [hf])
  have hw (T : Addr) (v : Byte) := s.wf_memAfterCopy T v hI.canonical
  have hb (T : Addr) (v : Byte) := s.below_memAfterCopy T v hI.inMemory
  rcases step_of_frame_cases hf with ⟨ht, _⟩ | ⟨_, _, _, ht⟩ | ⟨_, _, ht⟩ <;> cases h.symm.trans ht
  · exact State.inv_raise _ hI.canonical hI.inMemory hs
  · exact State.inv_raise _ (hw _ _) (hb _ _) hs
  · rcases s.endIteration_afterCopy_cases f with ⟨ht, _⟩ | ⟨_, ht⟩ <;> rw [ht]
    · exact State.inv_of_running (hw _ _) (hb _ _) hr hs (absurd rfl) nofun nofun
    · exact State.inv_of_running (hw _ _) (hb _ _) hr hs (fun _ => hn)
        (fun _ he => nomatch hn.symm.trans he) fun _ hP => nomatch hn.symm.trans hP

/-- Settles O40: a COPY keeps the invariant, RESET establishes it, and every other command leaves a canonical memory inside
CAPACITY, in RUNNING with its result or a frame begun, in FAULTED with its error. -/
theorem stepKeepsInvariant : Obligations.StepKeepsInvariant := by
  intro s t hI h
  have hcap := s.eight_lt_cap
  rcases step_next_states h with ⟨f, hf, _⟩ | ⟨_, _, rfl⟩ | ⟨_, _, _, rfl⟩ | ⟨rom, _, hR, _, _, hfits, rfl⟩ |
    ⟨_, _, _, _, _, _, rfl⟩ | ⟨keys, _, hR, _, rfl⟩ | ⟨_, _, _, _, rfl⟩ | ⟨_, hR, _, _, rfl⟩
  · exact hI.step_of_frame hf h
  · exact hI
  · exact State.inv_of_zeroed rfl rfl rfl rfl
  · exact State.inv_of_running (Memory.wf_writeBytes rom hI.canonical 0)
      (Memory.below_writeBytes rom hI.inMemory (show 0 + rom.length ≤ s.cap by omega)) hR.running rfl (absurd hR.idle)
      nofun nofun
  · exact State.inv_raise (s := { s with mem := Memory.ofFn _ _, stage := .romClosed, pending := _, draws := _ }) _
      (Memory.wf_ofFn _ _) (Memory.below_ofFn _ _) rfl
  · exact State.inv_of_running (Memory.wf_write (Memory.wf_write hI.canonical 0 _) 1 _)
      (Memory.below_write (Memory.below_write hI.inMemory (by omega) _) (by omega) _) hR.running rfl
      (fun _ => rfl) nofun nofun
  · exact State.inv_raise (s := { s with stage := .romClosed, pending := _ }) _ hI.canonical hI.inMemory rfl
  · refine State.inv_of_running hI.canonical hI.inMemory hR.running rfl (absurd hR.idle) nofun fun P hP => ?_
    rw [← CommandResult.pixelBuffer.inj (Option.some.inj hP)]
    exact s.pagePixels_length

end Sys2Proof.Machine
end

section
/-! PROOFS for the statements of spec/20_memory.md: the address resolver and the byte write (R31 to R35), the idle machine (R44), and
what can change a byte of memory (R65, R70, R95, R135). -/

/-! ## The address resolver -/

namespace Sys2Proof

/-- The fold as the positional sum in radix 256, the first byte with the highest weight (R33, R35). -/
theorem foldBytes_map_range (f : Nat → Byte) (n : Nat) :
    foldBytes ((List.range n).map f) = ∑ k ∈ Finset.range n, (f k).toNat * 256 ^ (n - 1 - k) := by
  induction n with
  | zero => rfl
  | succ n ih =>
    have hshift : ∀ k ∈ Finset.range n,
        (f k).toNat * 256 ^ (n - 1 - k) * 256 = (f k).toNat * 256 ^ (n + 1 - 1 - k) := by
      intro k hk
      have hk : k < n := Finset.mem_range.1 hk
      rw [mul_assoc, ← pow_succ, show n - 1 - k + 1 = n + 1 - 1 - k by omega]
    calc foldBytes ((List.range (n + 1)).map f)
        = foldBytes ((List.range n).map f) * 256 + (f n).toNat := by
          rw [List.range_succ, List.map_append, List.map_singleton, foldBytes_append]
      _ = (∑ k ∈ Finset.range n, (f k).toNat * 256 ^ (n + 1 - 1 - k)) + (f n).toNat := by
          rw [ih, Finset.sum_mul, Finset.sum_congr rfl hshift]
      _ = ∑ k ∈ Finset.range (n + 1), (f k).toNat * 256 ^ (n + 1 - 1 - k) := by
          rw [Finset.sum_range_succ]
          simp

end Sys2Proof

namespace Sys2Proof.Machine

/-- A read that does not run past the end of memory, or reads no byte, answers the fold of its cells (R33, R34). -/
theorem State.memRead_eq_foldBytes (s : State) {a n : Nat} (h : a + n ≤ s.cap ∨ n = 0) :
    s.memRead a n = .ok (foldBytes ((List.range n).map fun k => s.mem.read (a + k))) := by
  rw [State.memRead, s.readBytes_ok h]

/-- Settles O7: past the end of memory the read raises; elsewhere it is the fold, whose size and positional value are known. -/
theorem resolverFoldsBigEndian : Obligations.ResolverFoldsBigEndian := by
  intro s offset n
  by_cases hpast : 1 ≤ n ∧ s.cap < offset + n
  · exact ⟨iff_of_true (s.memRead_error hpast.1 hpast.2) hpast, absurd hpast⟩
  · have hread := s.memRead_eq_foldBytes (a := offset) (n := n) (by omega)
    refine ⟨iff_of_false (by simp [hread]) hpast, fun _ => ⟨_, hread, ?_, foldBytes_map_range _ n⟩⟩
    simpa using foldBytes_lt ((List.range n).map fun k => s.mem.read (offset + k))

/-! ## One byte read and written -/

/-- A write in range is read back (R31, R32). -/
theorem State.readByte_write_self (s : State) {a : Nat} (h : a < s.cap) (v : Byte) :
    State.readByte { s with mem := s.mem.write a v } a = .ok v := by
  rw [State.readByte_ok { s with mem := s.mem.write a v } h, Memory.read_write_self]

/-- A write leaves the read of every other address as it was, in range or not (R32). -/
theorem State.readByte_write_of_ne (s : State) {a b : Nat} (h : b ≠ a) (v : Byte) :
    State.readByte { s with mem := s.mem.write a v } b = s.readByte b := by
  simp only [State.readByte, Memory.read_write_of_ne s.mem v h]

/-- Settles O6: in range a write puts the byte at its own address alone; out of range both primitives raise. -/
theorem writeThenReadBack : Obligations.WriteThenReadBack := by
  intro s a v
  refine ⟨fun ha => ?_, fun ha => ⟨s.memWrite_error ha v, s.readByte_error ha⟩⟩
  exact ⟨s.readByte_ok ha, _, s.memWrite_ok ha v, s.readByte_write_self ha v,
    fun _ hb => s.readByte_write_of_ne hb v, rfl⟩

/-! ## The idle machine -/

/-- Settles O38: an idle step without a command answers the state it found, and a run is made of such steps. -/
theorem idleMachineIsStill : Obligations.IdleMachineIsStill := by
  intro s n hf hp
  induction n with
  | zero => exact run_zero s
  | succ n ih => rw [run_succ_of_next n (step_of_no_command s hf hp), ih]

/-! ## What can change a byte -/

/-- The memory after a COPY, whether it completes or faults: as it was, or with the guarded write of the source byte done (R71,
R72). -/
theorem State.copyAtPc_mem (s : State) (f : Frame) :
    (s.copyAtPc f).mem = s.mem ∨
    (s.copyAtPc f).mem =
      s.memAfterCopy (targetFieldIn s.mem f.pc) (s.mem.read (sourceFieldIn s.mem f.pc).toNat) := by
  rcases s.copyAtPc_cases f with ⟨h, _⟩ | ⟨_, _, ⟨_, h⟩ | ⟨_, h⟩⟩ <;> rw [h]
  · exact .inl rfl
  · exact .inr rfl
  · exact .inr rfl

/-- A byte that differs after a COPY is at its target, in range, and is the source's byte (R70, R73). -/
theorem State.copyAtPc_changed {s : State} {f : Frame} {a : Nat}
    (h : (s.copyAtPc f).mem.read a ≠ s.mem.read a) :
    a = (targetFieldIn s.mem f.pc).toNat ∧ a < s.cap ∧
      (s.copyAtPc f).mem.read a = s.mem.read (sourceFieldIn s.mem f.pc).toNat := by
  rcases s.copyAtPc_mem f with hm | hm <;> rw [hm] at h ⊢
  · exact absurd rfl h
  · rw [State.read_memAfterCopy] at h ⊢
    by_cases hT : (targetFieldIn s.mem f.pc).toNat < s.cap ∧ a = (targetFieldIn s.mem f.pc).toNat
    · exact ⟨hT.2, hT.2 ▸ hT.1, if_pos hT⟩
    · exact absurd (if_neg hT) h

/-- A byte that differs after bytes were stored from address 0 on is at one of their addresses (R65). -/
theorem Memory.lt_of_writeBytes_changed {m : Memory} {bs : List Byte} {a : Nat}
    (h : (m.writeBytes 0 bs).read a ≠ m.read a) : a < bs.length := by
  by_contra ha
  exact h (by rw [Memory.read_writeBytes, dif_neg (by omega)])

/-- A byte that differs after the key bytes were stored is one of the two (R95). -/
theorem Memory.lt_two_of_keys_changed {m : Memory} {hi lo : Byte} {a : Nat}
    (h : ((m.write 0 hi).write 1 lo).read a ≠ m.read a) : a < 2 := by
  by_contra ha
  exact h (by rw [Memory.read_write_of_ne _ _ (by omega), Memory.read_write_of_ne _ _ (by omega)])

/-- Settles O39: a COPY changes its target alone; of the commands STEP_FRAME changes the key bytes, LOAD_ROM its image or, too large,
any byte, RESET leaves 0x00, and no other step changes memory. -/
theorem memoryChangesOnlyAs : Obligations.MemoryChangesOnlyAs := by
  intro s t a h hne
  rcases step_next_states h with ⟨f, hf, rfl⟩ | ⟨_, _, rfl⟩ | ⟨rest, hf, hp, rfl⟩ | ⟨rom, rest, hR, _, hp, _, rfl⟩ |
    ⟨rom, rest, hR, _, hp, hlarge, rfl⟩ | ⟨keys, rest, hR, hp, rfl⟩ | ⟨_, _, _, _, rfl⟩ | ⟨_, _, _, _, rfl⟩
  · rw [State.endIteration_mem] at hne ⊢
    exact .inl ⟨f, hf, State.copyAtPc_changed hne⟩
  · exact absurd rfl hne
  · exact .inr ⟨hf, rest, .inr (.inr ⟨hp, Memory.read_nil a⟩)⟩
  · exact .inr ⟨hR.idle, rest, .inr (.inl ⟨rom, hp, .inl (Memory.lt_of_writeBytes_changed hne)⟩)⟩
  · exact .inr ⟨hR.idle, rest, .inr (.inl ⟨rom, hp, .inr hlarge⟩)⟩
  · exact .inr ⟨hR.idle, rest, .inl ⟨keys, hp, Memory.lt_two_of_keys_changed hne⟩⟩
  · exact absurd rfl hne
  · exact absurd rfl hne

end Sys2Proof.Machine
end

section
/-! PROOFS for the statements of spec/30_encoding.md: the decoder and the encoder are each other's inverse (R50 to R55), a fetched
record is what the step runs (R54), and the halt by a COPY that jumps to itself (R56). -/

/-! ## The decoder and the encoder -/

namespace Sys2Proof

/-- Decoding gives back what was encoded, and leaves the bytes after it: each field is taken apart and put together again (R51,
R55). -/
theorem decode_encode_append (i : Instr) (rest : List Byte) : decode (encode i ++ rest) = .ok (i, rest) := by
  cases i with
  | copy S T N =>
    rw [encode, bytesOfAddr, bytesOfAddr, bytesOfAddr]
    simp only [List.cons_append, List.nil_append]
    rw [decode_nine, addrOfBytes_extract S, addrOfBytes_extract T, addrOfBytes_extract N]

/-- Settles O2, by `decode_encode_append`. -/
theorem decodeAfterEncodeIsIdentity : Obligations.DecodeAfterEncodeIsIdentity :=
  decode_encode_append

/-- The COPY whose fields are built from nine bytes is encoded as those bytes (R51, R53). -/
theorem encode_copy_addrOfBytes (s0 s1 s2 t0 t1 t2 n0 n1 n2 : Byte) :
    encode (.copy (addrOfBytes s0 s1 s2) (addrOfBytes t0 t1 t2) (addrOfBytes n0 n1 n2)) =
      [s0, s1, s2, t0, t1, t2, n0, n1, n2] := by
  rw [encode, bytesOfAddr_addrOfBytes, bytesOfAddr_addrOfBytes, bytesOfAddr_addrOfBytes]
  rfl

/-- Fewer than nine bytes are no instruction (R50). -/
theorem decode_of_length_lt {bytes : List Byte} (h : bytes.length < 9) : decode bytes = .error .truncated := by
  unfold decode
  split
  · simp only [List.length_cons] at h
    omega
  · rfl

/-- Settles O3: nine bytes are the fields of one COPY, which is encoded as those bytes; a shorter list is truncated. -/
theorem everyNineBytesAreOneCopy : Obligations.EveryNineBytesAreOneCopy := by
  refine ⟨fun bytes rest h => ?_, fun _ => decode_of_length_lt⟩
  obtain ⟨s0, s1, s2, t0, t1, t2, n0, n1, n2, rfl⟩ := eq_nine_of_length h
  exact ⟨_, _, _, decode_nine s0 s1 s2 t0 t1 t2 n0 n1 n2 rest, encode_copy_addrOfBytes s0 s1 s2 t0 t1 t2 n0 n1 n2⟩

end Sys2Proof

namespace Sys2Proof.Machine

/-! ## The record at the pc -/

/-- A record can be fetched exactly where its last byte is in range (R54). -/
theorem State.fetchInstr_isSome_iff (s : State) (pc : Addr) :
    (s.fetchInstr pc).isSome = true ↔ s.inRange (pc.toNat + 8) := by
  by_cases h : pc.toNat + 8 < s.cap
  · exact iff_of_true (by rw [s.fetchInstr_some h, Option.isSome_some]) h
  · exact iff_of_false (by simp [s.fetchInstr_none (Nat.not_lt.1 h)]) h

/-- A three-byte read in range answers the field its bytes make (R52). -/
theorem State.memRead_addr (s : State) {a : Nat} (h : a + 3 ≤ s.cap) :
    s.memRead a 3 = .ok (addrOfBytes (s.mem.read a) (s.mem.read (a + 1)) (s.mem.read (a + 2))).toNat := by
  rw [s.memRead_three h, foldBytes_three, addrOfBytes_toNat]

/-- Settles O5: the fields of a fetched record are made of the memory's bytes, which the three reads answer. -/
theorem fieldsAreThreeByteReads : Obligations.FieldsAreThreeByteReads := by
  intro s pc
  refine ⟨s.fetchInstr_isSome_iff pc, fun S T N h => ?_⟩
  obtain ⟨hfits, rfl, rfl, rfl⟩ := s.fetchInstr_eq_some h
  exact ⟨s.memRead_addr (by omega), s.memRead_addr (by omega), s.memRead_addr (by omega), addrOfBytes_toNat _ _ _⟩

/-! ## The step runs the record at the pc -/

/-- A step in a frame whose pc holds a whole record is exec of it and the end of the iteration (R54, R85). -/
theorem step_of_fetch {s : State} {f : Frame} {i : Instr} (hf : s.frame = some f) (h : s.fetchInstr f.pc = some i) :
    step s = mapNext State.endIteration (exec i s) := by
  rw [step_of_frame s hf, s.copyAtPc_of_fetch f hf h, mapNext]

/-- Settles O16: the bytes that decode to `i` are the record fetched at the pc. -/
theorem stepRunsTheDecodedInstruction : Obligations.StepRunsTheDecodedInstruction := by
  intro s f bytes rest i hf hread hdecode _
  exact step_of_fetch hf (State.fetchInstr_of_readBytes hread hdecode)

/-- Bytes stored in range are read back (R32, R33). -/
theorem State.readBytes_of_writeBytes {s : State} {m : Memory} {a : Nat} {bs : List Byte}
    (hm : s.mem = m.writeBytes a bs) (h : a + bs.length ≤ s.cap) : s.readBytes a bs.length = .ok bs := by
  rw [s.readBytes_ok (.inl h), hm]
  refine congrArg Except.ok (List.ext_getElem (by simp) fun k _ hk => ?_)
  simp [Memory.read_writeBytes, hk]

/-- A record of nine bytes fits where the next instruction is fetched (R54). -/
theorem State.fetchPlace_fits (s : State) : s.fetchPlace.toNat + 8 < s.cap := by
  unfold State.fetchPlace
  dsimp only
  split_ifs with h
  · exact h
  · exact s.eight_lt_cap

/-- A record placed where the next instruction is fetched is what the step reads there (log entry 17). -/
theorem State.readBytes_placeRecord (s : State) {bytes : List Byte} (h : bytes.length = 9) :
    (s.placeRecord bytes).readBytes s.fetchPlace.toNat 9 = .ok bytes := by
  have hfits : s.fetchPlace.toNat + bytes.length ≤ s.cap := by
    have := s.fetchPlace_fits
    omega
  rw [← h]
  exact State.readBytes_of_writeBytes (s := s.placeRecord bytes) rfl hfits

/-- The opcode table's instruction of a word is the one its record decodes to. -/
theorem decode_of_decodeTableWord {nbits w : Nat} {i : Instr} (h : decodeTableWord nbits w = some i) :
    decode (recordOfTableWord nbits w) = .ok (i, []) := by
  rw [decodeTableWord, recordOfTableWord, decode_recordOfWord] at h
  rw [recordOfTableWord, decode_recordOfWord, Option.some.inj h]

/-- Settles O43: the record placed is read back at the frame's pc, so the step runs the instruction it decodes to. -/
theorem placedInstructionRunsNext : Obligations.PlacedInstructionRunsNext := by
  intro s nbits w i h
  have hread := s.readBytes_placeRecord (recordOfWord_length (BitVec.ofNat 72 (w % 2 ^ nbits)))
  have hfetch : (s.withFetchWord nbits w).fetchInstr s.fetchPlace = some i :=
    State.fetchInstr_of_readBytes hread (decode_of_decodeTableWord h)
  exact step_of_fetch (f := { pc := s.fetchPlace, iter := s.fetchIter }) rfl hfetch

/-! ## Nothing in a frame stops the machine -/

/-- The acceptance of a command answers a next state or a refusal, never a fault (R122). -/
theorem State.issue_ne_fault (s : State) (c : Command) (e : Fault) : s.issue c ≠ .fault e := by
  rcases s.issue_cases c with ⟨_, h⟩ | ⟨_, _, ⟨_, _, _, h⟩ | ⟨_, _, h⟩ | ⟨_, h⟩⟩ | ⟨_, _, h⟩ | ⟨_, _, _, h⟩ |
    ⟨_, _, _, _, _, h⟩ <;> rw [h] <;> nofun

/-- Settles O37: a step in a frame is a COPY with a next state, fault or not, and an idle one is nothing or a command. -/
theorem nothingInAFrameStopsTheMachine : Obligations.NothingInAFrameStopsTheMachine := by
  refine ⟨fun s hframe => ?_, fun s e => ?_⟩
  · obtain ⟨f, hf⟩ := Option.ne_none_iff_exists'.1 hframe
    exact ⟨_, step_of_frame s hf⟩
  · rcases hf : s.frame with _ | f
    · rcases hp : s.pending with _ | ⟨c, rest⟩
      · rw [step_of_no_command s hf hp]
        nofun
      · rw [step_of_command s hf hp]
        exact State.issue_ne_fault _ c e
    · rw [step_of_frame s hf]
      nofun

/-! ## The self-jump -/

/-- Memory holds at `pc` a COPY of the byte at `S` onto itself that jumps to `pc`, and such a COPY completes (R56). It says nothing
of the frame, so it holds on while only the iteration counter moves. -/
structure State.SelfJumpAt (s : State) (pc S : Addr) : Prop where
  canonical : s.mem.wf = true
  completes : s.CopyCompletes pc S
  source : sourceFieldIn s.mem pc = S
  target : targetFieldIn s.mem pc = S
  next : nextFieldIn s.mem pc = pc

/-- A fetched `COPY S, S, pc` at `pc` with `S` in range is such a COPY. -/
theorem State.selfJumpAt_of_fetch {s : State} {pc S : Addr} (hw : s.mem.wf = true)
    (h : s.fetchInstr pc = some (.copy S S pc)) (hS : s.inRange S.toNat) : s.SelfJumpAt pc S := by
  obtain ⟨hfits, hsource, htarget, hnext⟩ := s.fetchInstr_eq_some h
  exact ⟨hw, ⟨hfits, hS⟩, hsource.symm, htarget.symm, hnext.symm⟩

/-- A byte copied onto itself leaves canonical memory the same list of cells. -/
theorem State.memAfterCopy_self {s : State} (hw : s.mem.wf = true) (S : Addr) :
    s.memAfterCopy S (s.mem.read S.toNat) = s.mem := by
  unfold State.memAfterCopy
  split_ifs
  · exact Memory.write_read_self hw S.toNat
  · rfl

/-- The state in the frame `f`, its counter at `i`. -/
def State.atIteration (s : State) (f : Frame) (i : Fin Config.stepsPerFrame) : State :=
  { s with frame := some { f with iter := i } }

/-- At its own counter a frame is as it is. -/
theorem State.atIteration_self {s : State} {f : Frame} (hf : s.frame = some f) : s.atIteration f f.iter = s := by
  rw [State.atIteration, ← hf]

/-- The step of a self-jump is nothing but the end of its iteration (R56, R76). -/
theorem State.SelfJumpAt.step_eq {s : State} {f : Frame} {S : Addr} (h : s.SelfJumpAt f.pc S) (hf : s.frame = some f) :
    step s = .next s.endIteration := by
  have hcopy : s.afterCopy f = s := by
    rw [State.afterCopy, h.source, h.target, State.memAfterCopy_self h.canonical, h.next, ← hf]
  rw [step_of_completes hf (h.source.symm ▸ h.completes), hcopy]

/-- The step of a self-jump at any iteration of its frame: memory and CAPACITY are those of `s`, so it is the same self-jump. -/
theorem State.SelfJumpAt.step_atIteration {s : State} {f : Frame} {S : Addr} (h : s.SelfJumpAt f.pc S)
    (i : Fin Config.stepsPerFrame) : step (s.atIteration f i) = .next (s.atIteration f i).endIteration := by
  have hat : (s.atIteration f i).SelfJumpAt f.pc S := ⟨h.canonical, h.completes, h.source, h.target, h.next⟩
  exact hat.step_eq (f := { f with iter := i }) rfl

/-- While the frame lasts, the self-jump counts its iterations and changes nothing else (R56, R86). -/
theorem State.SelfJumpAt.run_eq {s : State} {f : Frame} {S : Addr} (h : s.SelfJumpAt f.pc S) (hf : s.frame = some f)
    (k : Nat) (hk : f.iter.val + k < 65536) : run k s = .next (s.atIteration f ⟨f.iter.val + k, hk⟩) := by
  induction k with
  | zero => exact congrArg Host.Outcome.next (State.atIteration_self hf).symm
  | succ k ih =>
    have hk' : f.iter.val + k < 65536 := by omega
    have hmore : (s.atIteration f ⟨f.iter.val + k, hk'⟩).endIteration = s.atIteration f ⟨f.iter.val + (k + 1), hk⟩ :=
      State.endIteration_of_more _ (f := { f with iter := ⟨f.iter.val + k, hk'⟩ }) rfl hk
    rw [run_add 1 (ih hk'), run_one, h.step_atIteration, hmore]

/-- Settles O22: the self-jump spins up to iteration 65535, whose step ends the frame. -/
theorem selfJumpSpinsToTheEndOfTheFrame : Obligations.SelfJumpSpinsToTheEndOfTheFrame := by
  intro s f S hw hf hfetch hS
  have h := State.selfJumpAt_of_fetch hw hfetch hS
  refine ⟨h.run_eq hf, ?_⟩
  have hi := f.iter_lt
  obtain ⟨k, hk⟩ : ∃ k, f.iter.val + k = 65535 := ⟨65535 - f.iter.val, by omega⟩
  have hk' : f.iter.val + k < 65536 := by omega
  have hend : (s.atIteration f ⟨f.iter.val + k, hk'⟩).endIteration =
      { s with frame := none, result := some .frameDone } :=
    State.endIteration_of_last _ (f := { f with iter := ⟨f.iter.val + k, hk'⟩ }) rfl
      (show ¬ f.iter.val + k + 1 < 65536 by omega)
  rw [show 65536 - f.iter.val = k + 1 by omega, run_add 1 (h.run_eq hf k hk'), run_one, h.step_atIteration, hend]

end Sys2Proof.Machine
end

section
/-! PROOFS for the statement of spec/40_rom_loader.md: where LOAD_ROM stores its image (R65) and the image that does not fit (R66). -/

namespace Sys2Proof.Machine

/-- An image stored from address 0 on has its byte `a` at address `a` (R65). -/
theorem Memory.read_writeBytes_of_getElem? (m : Memory) {bs : List Byte} {a : Nat} {b : Byte} (h : bs[a]? = some b) :
    (m.writeBytes 0 bs).read a = b := by
  obtain ⟨ha, hb⟩ := List.getElem?_eq_some_iff.1 h
  rw [Memory.read_writeBytes, dif_pos ⟨a.zero_le, ha⟩]
  exact hb

/-- An image stored from address 0 on leaves the cells from its length on as they were (R65). -/
theorem Memory.read_writeBytes_of_length_le (m : Memory) {bs : List Byte} {a : Nat} (h : bs.length ≤ a) :
    (m.writeBytes 0 bs).read a = m.read a :=
  not_imp_comm.1 Memory.lt_of_writeBytes_changed (Nat.not_lt.2 h)

/-- Settles O26: an image that fits is stored cell by cell; a longer one is RomTooLarge. -/
theorem loadRomCopiesTheImage : Obligations.LoadRomCopiesTheImage := by
  intro s rom rest hR hstage hp
  by_cases hfits : rom.length ≤ s.cap
  · refine ⟨_, step_of_loadRom_ok hR hstage hp hfits, hR.idle, rfl, rfl, rfl, fun _ => ?_, fun hlarge => ?_⟩
    · exact ⟨hR.running, rfl, fun _ _ => s.mem.read_writeBytes_of_getElem?,
        fun _ => s.mem.read_writeBytes_of_length_le⟩
    · exact absurd hfits (Nat.not_le.2 hlarge)
  · have hlarge : s.cap < rom.length := Nat.not_le.1 hfits
    exact ⟨_, step_of_loadRom_error hR hstage hp hlarge, rfl, rfl, rfl, rfl,
      fun h => absurd h hfits, fun _ => ⟨rfl, rfl⟩⟩

end Sys2Proof.Machine
end

section
/-! PROOFS for the statements of spec/41_copy_instruction.md: the effect of a COPY and its frame (R70), its jump (R76) and the COPY
onto its own record (R75), the addresses that are out of range (R73, R74), and the order of its faults (R71). -/

namespace Sys2Proof.Machine

/-! ## The guarded write -/

/-- The guarded write changes no byte but the target's (R70). -/
theorem State.read_memAfterCopy_of_ne (s : State) {T : Addr} {a : Nat} (h : a ≠ T.toNat) (v : Byte) :
    (s.memAfterCopy T v).read a = s.mem.read a := by
  rw [State.read_memAfterCopy, if_neg fun hT => h hT.2]

/-- In range the guarded write is the write (R70). -/
theorem State.memAfterCopy_of_inRange (s : State) {T : Addr} (h : s.inRange T.toNat) (v : Byte) :
    s.memAfterCopy T v = s.mem.write T.toNat v := if_pos h

/-- Out of range the guarded write is skipped (R73). -/
theorem State.memAfterCopy_of_cap_le (s : State) {T : Addr} (h : s.cap ≤ T.toNat) (v : Byte) :
    s.memAfterCopy T v = s.mem := if_neg (Nat.not_lt.2 h)

/-- The next field is as it was where the target is none of its three bytes (R76). -/
theorem State.nextFieldIn_memAfterCopy (s : State) {pc T : Addr} (h : T.toNat < pc.toNat + 6 ∨ pc.toNat + 8 < T.toNat)
    (v : Byte) : nextFieldIn (s.memAfterCopy T v) pc = nextFieldIn s.mem pc := by
  rw [nextFieldIn, s.read_memAfterCopy_of_ne (by omega), s.read_memAfterCopy_of_ne (by omega),
    s.read_memAfterCopy_of_ne (by omega), nextFieldIn]

/-! ## What exec of a COPY answers -/

/-- A COPY that completes: the guarded write, then the jump to the next field of the memory after it (R70, R72). -/
theorem exec_copy_of_completes {s : State} {f : Frame} {S : Addr} (T N : Addr) (hf : s.frame = some f)
    (hc : s.CopyCompletes f.pc S) :
    exec (.copy S T N) s = .next { s with
      mem := s.memAfterCopy T (s.mem.read S.toNat)
      frame := some { f with pc := nextFieldIn (s.memAfterCopy T (s.mem.read S.toNat)) f.pc } } := by
  rw [exec_copy_of_frame s f S T N hf, s.copyAndJump_done f T hc.2 hc.1]

/-- A COPY whose source is out of range: a fault with nothing written (R74). -/
theorem exec_copy_of_source_fault {s : State} {f : Frame} {S : Addr} (T N : Addr) (hf : s.frame = some f)
    (hS : s.cap ≤ S.toNat) : exec (.copy S T N) s = .next (s.raise .addressOutOfRange) := by
  rw [exec_copy_of_frame s f S T N hf, s.copyAndJump_source_fault f T hS]

/-- A COPY whose next field alone is out of range: a fault after the guarded write (R71 row 4). -/
theorem exec_copy_of_next_fault {s : State} {f : Frame} {S : Addr} (T N : Addr) (hf : s.frame = some f)
    (hS : s.inRange S.toNat) (hpc : s.cap ≤ f.pc.toNat + 8) :
    exec (.copy S T N) s =
      .next (State.raise .addressOutOfRange { s with mem := s.memAfterCopy T (s.mem.read S.toNat) }) := by
  rw [exec_copy_of_frame s f S T N hf, s.copyAndJump_next_fault f T hS hpc]

/-- What a COPY that answers a next state did, complete: a fault with nothing written, a fault after the guarded write, or the
write and the jump (R71, R72). -/
theorem exec_copy_next_cases {s t : State} {S T N : Addr} (h : exec (.copy S T N) s = .next t) :
    ∃ f, s.frame = some f ∧
      ((s.cap ≤ S.toNat ∧ t = s.raise .addressOutOfRange) ∨
       (s.inRange S.toNat ∧ s.cap ≤ f.pc.toNat + 8 ∧
        t = State.raise .addressOutOfRange { s with mem := s.memAfterCopy T (s.mem.read S.toNat) }) ∨
       (s.CopyCompletes f.pc S ∧
        t = { s with
          mem := s.memAfterCopy T (s.mem.read S.toNat)
          frame := some { f with pc := nextFieldIn (s.memAfterCopy T (s.mem.read S.toNat)) f.pc } })) := by
  rcases hf : s.frame with _ | f
  · simp only [exec, execCopy, hf] at h
    cases h
  · refine ⟨f, rfl, ?_⟩
    rcases Nat.lt_or_ge S.toNat s.cap with hS | hS
    · rcases Nat.lt_or_ge (f.pc.toNat + 8) s.cap with hpc | hpc
      · exact .inr (.inr ⟨⟨hpc, hS⟩, Host.Outcome.next.inj (h.symm.trans (exec_copy_of_completes T N hf ⟨hpc, hS⟩))⟩)
      · exact .inr (.inl ⟨hS, hpc, Host.Outcome.next.inj (h.symm.trans (exec_copy_of_next_fault T N hf hS hpc))⟩)
    · exact .inl ⟨hS, Host.Outcome.next.inj (h.symm.trans (exec_copy_of_source_fault T N hf hS))⟩

/-- Settles O9: the COPY completes, and its memory is that of the guarded write. -/
theorem copyCompletesWithItsEffect : Obligations.CopyCompletesWithItsEffect := by
  intro s f S T N hf hc
  refine ⟨_, exec_copy_of_completes T N hf hc, fun a => ?_, rfl, rfl⟩
  exact (s.read_memAfterCopy T _ a).trans (if_congr and_comm rfl rfl)

/-- Settles O10: a COPY leaves memory as it was or, its source in range, does the guarded write; only a fault touches the status and
the result. -/
theorem copyFrame : Obligations.CopyFrame := by
  intro s t S T N h
  have hskip (hS : s.inRange S.toNat) (hout : s.cap ≤ T.toNat ∨ s.cap ≤ S.toNat) (v : Byte) : s.memAfterCopy T v = s.mem :=
    s.memAfterCopy_of_cap_le (hout.resolve_right (Nat.not_le.2 hS)) v
  obtain ⟨f, hf, ⟨hS, rfl⟩ | ⟨hS, hpc, rfl⟩ | ⟨hc, rfl⟩⟩ := exec_copy_next_cases h
  · exact ⟨fun _ _ => rfl, fun _ _ => rfl, rfl, rfl, rfl, rfl, f, hf, fun hc => absurd hS (Nat.not_le.2 hc.2)⟩
  · exact ⟨fun _ ha => s.read_memAfterCopy_of_ne ha _, fun hout a => congrArg (·.read a) (hskip hS hout _),
      rfl, rfl, rfl, rfl, f, hf, fun hc => absurd hpc (Nat.not_le.2 hc.1)⟩
  · exact ⟨fun _ ha => s.read_memAfterCopy_of_ne ha _, fun hout a => congrArg (·.read a) (hskip hc.2 hout _),
      rfl, rfl, rfl, rfl, f, hf, fun _ => ⟨rfl, rfl, _, rfl⟩⟩

/-! ## The jump -/

/-- A record fetched at `pc` ends in range, and its operands are the fields that memory makes there (R52, R54). -/
theorem State.fields_of_fetchInstr {s : State} {pc S T N : Addr} (h : s.fetchInstr pc = some (.copy S T N)) :
    s.inRange (pc.toNat + 8) ∧ S = sourceFieldIn s.mem pc ∧ T = targetFieldIn s.mem pc ∧ N = nextFieldIn s.mem pc :=
  s.fetchInstr_eq_some h

/-- exec of the COPY fetched at the frame's pc, its source in range, is the copy and the jump (R70). -/
theorem exec_copy_of_fetch {s : State} {f : Frame} {S T N : Addr} (hf : s.frame = some f)
    (h : s.fetchInstr f.pc = some (.copy S T N)) (hS : s.inRange S.toNat) :
    exec (.copy S T N) s = .next (s.afterCopy f) := by
  obtain ⟨hfits, rfl, rfl, rfl⟩ := State.fields_of_fetchInstr h
  exact exec_copy_of_completes _ _ hf ⟨hfits, hS⟩

/-- The jump is to the `N` that was decoded where the target is none of the next field's bytes (R76). -/
theorem State.afterCopy_next_of_fetch {s : State} {f : Frame} {S T N : Addr}
    (h : s.fetchInstr f.pc = some (.copy S T N)) (hT : T.toNat < f.pc.toNat + 6 ∨ f.pc.toNat + 8 < T.toNat) :
    nextFieldIn (s.afterCopy f).mem f.pc = N := by
  obtain ⟨-, -, rfl, rfl⟩ := State.fields_of_fetchInstr h
  exact s.nextFieldIn_memAfterCopy hT _

/-- Settles O11: the next field read after the write is the one that was decoded. -/
theorem copyJumpsToItsNextField : Obligations.CopyJumpsToItsNextField := by
  intro s f S T N hf hfetch hS hT
  refine ⟨_, exec_copy_of_fetch hf hfetch hS, ?_⟩
  rw [← State.afterCopy_next_of_fetch hfetch hT]
  rfl

/-- The nine bytes that `m` holds from `a` on (R50). -/
def Memory.recordAt (m : Memory) (a : Nat) : List Byte :=
  (List.range 9).map fun k => m.read (a + k)

/-- The encoding of a fetched instruction is the nine bytes at the pc (R51, R54). -/
theorem State.encode_of_fetchInstr {s : State} {pc : Addr} {i : Instr} (h : s.fetchInstr pc = some i) :
    encode i = s.mem.recordAt pc.toNat := by
  obtain ⟨S, T, N⟩ := i
  obtain ⟨-, rfl, rfl, rfl⟩ := s.fetchInstr_eq_some h
  exact encode_copy_addrOfBytes _ _ _ _ _ _ _ _ _

/-- A write to byte `k` of a record replaces that byte of it alone (R32). -/
theorem Memory.recordAt_write (m : Memory) (a k : Nat) (v : Byte) :
    (m.write (a + k) v).recordAt a = (m.recordAt a).set k v := by
  refine List.ext_getElem (by simp [Memory.recordAt]) fun j _ _ => ?_
  simp [Memory.recordAt, List.getElem_set, eq_comm]

/-- Settles O12: the record after the COPY is the old one with byte `k` written, and the jump is to its next field. -/
theorem copyOntoItselfJumpsToTheNewNext : Obligations.CopyOntoItselfJumpsToTheNewNext := by
  intro s f S T N k hf hfetch hS hk hT
  obtain ⟨hfits, hSfield, hTfield, -⟩ := State.fields_of_fetchInstr hfetch
  have hmem : (s.afterCopy f).mem = s.mem.write (f.pc.toNat + k) (s.mem.read S.toNat) := by
    rw [State.afterCopy, ← hSfield, ← hTfield, ← hT]
    exact s.memAfterCopy_of_inRange (show T.toNat < s.cap by omega) _
  have hfetch' := (s.afterCopy f).fetchInstr_some (pc := f.pc) hfits
  refine ⟨_, _, _, _, exec_copy_of_fetch hf hfetch hS, hfetch', ?_, rfl, fun hk6 => ?_⟩
  · rw [State.encode_of_fetchInstr hfetch', State.encode_of_fetchInstr hfetch, hmem, Memory.recordAt_write]
  · exact State.afterCopy_next_of_fetch hfetch (.inl (by omega))

/-! ## Addresses out of range -/

/-- Only the last 24-bit address can be out of range, and only at CAPACITY = 0xFFFFFF (R73, R74). -/
theorem State.cap_le_addr_iff (s : State) (a : Addr) : s.cap ≤ a.toNat ↔ s.capacity = .short ∧ a = 0xFFFFFF := by
  have ha := a.isLt
  have hlast : a = 0xFFFFFF ↔ a.toNat = 0xFFFFFF := BitVec.toNat_inj.symm
  rw [State.cap, hlast]
  cases s.capacity with
  | short => simp only [Config.Capacity.bytes, true_and]; omega
  | full => simp only [Config.Capacity.bytes, reduceCtorEq, false_and, iff_false]; omega

/-- Settles O13: the fault at c1 is raised on the state as it was found. -/
theorem sourceOutOfRangeAlwaysFaults : Obligations.SourceOutOfRangeAlwaysFaults :=
  ⟨fun _ _ _ T N hf hS => exec_copy_of_source_fault T N hf hS, State.cap_le_addr_iff⟩

/-- Settles O14: the memory after a skipped write is the memory before it, whether the COPY then completes or faults. -/
theorem targetOutOfRangeIsSkipped : Obligations.TargetOutOfRangeIsSkipped := by
  refine ⟨fun s f S T N hf hT hc => ?_, fun s f S T N hf hT hout => ?_, State.cap_le_addr_iff⟩
  · rw [exec_copy_of_completes T N hf hc, s.memAfterCopy_of_cap_le hT]
  · rcases Nat.lt_or_ge S.toNat s.cap with hS | hS
    · exact ⟨_, exec_copy_of_next_fault T N hf hS (hout.resolve_left (Nat.not_le.2 hS)), rfl,
        s.memAfterCopy_of_cap_le hT _⟩
    · exact ⟨_, exec_copy_of_source_fault T N hf hS, rfl, rfl⟩

/-! ## The order of the faults -/

/-- A step whose source or target field or whose source is out of range: a fault with nothing written (R71 rows 1 to 3). -/
theorem step_of_early_fault {s : State} {f : Frame} (hf : s.frame = some f)
    (h : s.cap ≤ f.pc.toNat + 5 ∨ s.cap ≤ (sourceFieldIn s.mem f.pc).toNat) :
    step s = .next (s.raise .addressOutOfRange) := by
  rcases step_of_frame_cases hf with ⟨hstep, _⟩ | ⟨h5, hS, _⟩ | ⟨h8, hS, _⟩
  · exact hstep
  · omega
  · omega

/-- A step whose next field alone is out of range: a fault after the guarded write (R71 row 4). -/
theorem step_of_next_fault {s : State} {f : Frame} (hf : s.frame = some f) (h5 : f.pc.toNat + 5 < s.cap)
    (hS : (sourceFieldIn s.mem f.pc).toNat < s.cap) (h8 : s.cap ≤ f.pc.toNat + 8) :
    step s = .next (State.raise .addressOutOfRange
      { s with mem := s.memAfterCopy (targetFieldIn s.mem f.pc) (s.mem.read (sourceFieldIn s.mem f.pc).toNat) }) := by
  rcases step_of_frame_cases hf with ⟨_, hfault⟩ | ⟨_, _, _, hstep⟩ | ⟨hfits, _⟩
  · omega
  · exact hstep
  · omega

/-- A byte after the guarded write, by whether it is the target's and in range (R70, R73). -/
theorem State.read_memAfterCopy_eq_ite (s : State) (T : Addr) (v : Byte) (a : Nat) :
    (s.memAfterCopy T v).read a = if a = T.toNat ∧ a < s.cap then v else s.mem.read a := by
  have hcond : T.toNat < s.cap ∧ a = T.toNat ↔ a = T.toNat ∧ a < s.cap :=
    and_comm.trans (and_congr_right fun ha => by rw [ha])
  exact (s.read_memAfterCopy T v a).trans (if_congr hcond rfl rfl)

/-- At CAPACITY = 0x1000000 the record at `pc` runs past the end of memory for the last eight addresses (R71). -/
theorem State.cap_le_record_end_of_full {s : State} (h : s.capacity = .full) (pc : Addr) :
    s.cap ≤ pc.toNat + 8 ↔ 0xFFFFF8 ≤ pc.toNat := by
  have hcap : s.cap = 0x1000000 := congrArg Config.Capacity.bytes h
  omega

/-- At CAPACITY = 0xFFFFFF the record at `pc` runs past the end of memory for the last nine addresses (R71). -/
theorem State.cap_le_record_end_of_short {s : State} (h : s.capacity = .short) (pc : Addr) :
    s.cap ≤ pc.toNat + 8 ↔ 0xFFFFF7 ≤ pc.toNat := by
  have hcap : s.cap = 0xFFFFFF := congrArg Config.Capacity.bytes h
  omega

/-- Settles O15: each row of R71's table is one case of the step in a frame, and the two CAPACITY values give its bounds. -/
theorem copyFaultsInOrder : Obligations.CopyFaultsInOrder := by
  refine ⟨fun s f hf => ⟨fun h => ?_, fun h5 hS h8 => ?_, fun h8 hS => ?_⟩, fun s pc S h => ?_, fun s pc S h => ?_⟩
  · exact step_of_early_fault hf (by omega)
  · exact ⟨_, step_of_next_fault hf h5 hS h8, s.read_memAfterCopy_eq_ite _ _, rfl⟩
  · refine ⟨_, step_of_completes hf ⟨h8, hS⟩, (s.afterCopy f).endIteration_status, fun a => ?_⟩
    rw [State.endIteration_mem]
    exact s.read_memAfterCopy_eq_ite _ _ a
  · exact ⟨State.cap_le_record_end_of_full h pc, by simp [State.cap_le_addr_iff, h]⟩
  · exact ⟨State.cap_le_record_end_of_short h pc, by simp [State.cap_le_addr_iff, h]⟩

end Sys2Proof.Machine
end

section
/-! PROOFS for the statements of spec/42_step_frame.md: the start of a frame (R85, R97), the count of its iterations and its end (R86,
R87), the same results from the same memory and keys (R88), and the host that a running frame does not see (R90). -/

namespace Sys2Proof.Machine

/-! ## The start of a frame -/

/-- A machine whose first two cells hold the bytes of `keys`, the high one first, holds `keys` in KEYS (R16, R95). -/
theorem State.keysField_of_bytes {s : State} {keys : KeyMask} (hhigh : s.mem.read 0 = keys.extractLsb' 8 8)
    (hlow : s.mem.read 1 = keys.extractLsb' 0 8) : s.keysField = keys := by
  have hkeys := keys.isLt
  apply BitVec.eq_of_toNat_eq
  rw [State.keysField, hhigh, hlow, foldBytes_two]
  simp only [BitVec.toNat_ofNat, BitVec.extractLsb'_toNat, Nat.shiftRight_eq_div_pow]
  omega

/-- The key bytes stored leave every cell from address 2 on as it was (R95). -/
theorem Memory.read_keys_of_two_le (m : Memory) (high low : Byte) {a : Nat} (h : 2 ≤ a) :
    ((m.write 0 high).write 1 low).read a = m.read a :=
  not_imp_comm.1 Memory.lt_two_of_keys_changed (Nat.not_lt.2 h)

/-- The key bytes stored are read back (R95). -/
theorem Memory.read_keys (m : Memory) (high low : Byte) :
    ((m.write 0 high).write 1 low).read 0 = high ∧ ((m.write 0 high).write 1 low).read 1 = low := by
  rw [Memory.read_write_of_ne _ _ (by decide), Memory.read_write_self, Memory.read_write_self]
  exact ⟨rfl, rfl⟩

/-- Settles O18: the step stores the two key bytes and begins the frame at PCVEC, which they do not overlap. -/
theorem stepFrameWritesKeysAndStartsAtPcVec : Obligations.StepFrameWritesKeysAndStartsAtPcVec := by
  intro s keys rest hR hp
  obtain ⟨hhigh, hlow⟩ := s.mem.read_keys (keys.extractLsb' 8 8) (keys.extractLsb' 0 8)
  exact ⟨_, step_of_stepFrame hR hp, hhigh, hlow, State.keysField_of_bytes hhigh hlow,
    fun _ => s.mem.read_keys_of_two_le _ _, rfl, hR.running, rfl, rfl, rfl, rfl⟩

/-! ## The iterations -/

/-- Settles O17: the COPY that completes is followed by the end of its iteration, which goes on or, at the 65536th, ends the command. -/
theorem iterationsAreCounted : Obligations.IterationsAreCounted := by
  intro s f hf hc
  refine ⟨_, step_of_completes hf hc, State.endIteration_status _, State.endIteration_pending _, ?_⟩
  rcases s.endIteration_afterCopy_cases f with ⟨ht, hlast⟩ | ⟨hmore, ht⟩ <;> rw [ht]
  · exact ⟨fun h => by omega, fun _ => ⟨rfl, rfl⟩⟩
  · exact ⟨fun _ => ⟨rfl, rfl⟩, fun h => by omega⟩

/-- A frame runs in RUNNING and has completed `k` COPYs (R14, R86). -/
def State.FrameAt (s : State) (k : Nat) : Prop :=
  s.status = .running ∧ ∃ f, s.frame = some f ∧ f.iter.val = k

/-- The frame has been ended by its last COPY, with `Ok(())` (R85 step 4). -/
def State.FrameDone (s : State) : Prop :=
  s.frame = none ∧ s.status = .running ∧ s.result = some .frameDone

/-- The frame has been ended by the fault of a COPY (R89, R122). -/
def State.FrameFailed (s : State) : Prop :=
  s.frame = none ∧ s.status = .faulted ∧ s.result = some (.failed .addressOutOfRange)

/-- A step of the frame that has completed `k` COPYs: it faults, it is the 65536th COPY and ends the frame, or it completes one more.
The host's commands wait (R86, R89, R90). -/
theorem State.FrameAt.step_cases {s : State} {k : Nat} (h : s.FrameAt k) :
    ∃ t, step s = .next t ∧ t.pending = s.pending ∧
      (t.FrameFailed ∨ (k + 1 = 65536 ∧ t.FrameDone) ∨ t.FrameAt (k + 1)) := by
  obtain ⟨hr, f, hf, rfl⟩ := h
  rcases step_of_frame_cases hf with ⟨hs, _⟩ | ⟨_, _, _, hs⟩ | ⟨_, _, hs⟩
  · exact ⟨_, hs, rfl, .inl ⟨rfl, rfl, rfl⟩⟩
  · exact ⟨_, hs, rfl, .inl ⟨rfl, rfl, rfl⟩⟩
  · refine ⟨_, hs, State.endIteration_pending _, .inr ?_⟩
    rcases s.endIteration_afterCopy_cases f with ⟨ht, hlast⟩ | ⟨_, ht⟩ <;> rw [ht]
    · exact .inl ⟨by omega, rfl, hr, rfl⟩
    · exact .inr ⟨hr, _, rfl, rfl⟩

/-- The frame that has completed `k` COPYs and has `d` to go runs `n` steps and is over in `t`: all `d` COPYs completed, or the last of
at most `d` faulted. Before that it counts its COPYs. -/
structure State.FrameRun (s : State) (k d n : Nat) (t : State) : Prop where
  reaches : run n s = .next t
  pending : t.pending = s.pending
  ended : n = d ∧ t.FrameDone ∨ 1 ≤ n ∧ n ≤ d ∧ t.FrameFailed
  counts : ∀ m < n, ∃ u, run m s = .next u ∧ u.FrameAt (k + m)

/-- A frame that ends with its next step. -/
theorem State.FrameAt.frameRun_one {s t : State} {k d : Nat} (h : s.FrameAt k) (hs : step s = .next t)
    (hp : t.pending = s.pending) (hend : 1 = d ∧ t.FrameDone ∨ 1 ≤ d ∧ t.FrameFailed) : s.FrameRun k d 1 t where
  reaches := (run_one s).trans hs
  pending := hp
  ended := hend.imp_right fun hfail => ⟨le_rfl, hfail⟩
  counts := fun m hm => by
    obtain rfl : m = 0 := by omega
    exact ⟨s, run_zero s, h⟩

/-- A frame that completes one more COPY and runs on. -/
theorem State.FrameRun.cons {s t u : State} {k d n : Nat} (h : s.FrameAt k) (hs : step s = .next u)
    (hp : u.pending = s.pending) (hrun : u.FrameRun (k + 1) d n t) : s.FrameRun k (d + 1) (n + 1) t where
  reaches := (run_succ_of_next n hs).trans hrun.reaches
  pending := hrun.pending.trans hp
  ended := by
    rcases hrun.ended with ⟨hn, hdone⟩ | ⟨_, hn, hfail⟩
    · exact .inl ⟨by omega, hdone⟩
    · exact .inr ⟨by omega, by omega, hfail⟩
  counts
    | 0, _ => ⟨s, run_zero s, h⟩
    | m + 1, hm => by
      obtain ⟨v, hv, hat⟩ := hrun.counts m (by omega)
      exact ⟨v, (run_succ_of_next m hs).trans hv, by rwa [show k + (m + 1) = k + 1 + m by omega]⟩

/-- A frame always ends: by induction on the COPYs it has to go (R86). -/
theorem State.FrameAt.exists_frameRun {s : State} {k d : Nat} (h : s.FrameAt k) (hd : k + d = 65536) :
    ∃ n t, s.FrameRun k d n t := by
  induction d generalizing s k with
  | zero =>
    obtain ⟨_, f, _, rfl⟩ := h
    have := f.iter_lt
    omega
  | succ d ih =>
    obtain ⟨t, hs, hp, hfail | ⟨hk, hdone⟩ | hat⟩ := h.step_cases
    · exact ⟨1, t, h.frameRun_one hs hp (.inr ⟨by omega, hfail⟩)⟩
    · exact ⟨1, t, h.frameRun_one hs hp (.inl ⟨by omega, hdone⟩)⟩
    · obtain ⟨n, u, hrun⟩ := ih hat (by omega)
      exact ⟨n + 1, u, hrun.cons h hs hp⟩

/-- The acceptance of STEP_FRAME begins a frame that has completed no COPY (R85, R86). -/
theorem step_of_stepFrame_frameAt {s : State} {keys : KeyMask} {rest : List Command} (h : s.Ready)
    (hp : s.pending = .stepFrame keys :: rest) : ∃ u, step s = .next u ∧ u.pending = rest ∧ u.FrameAt 0 :=
  ⟨_, step_of_stepFrame h hp, rfl, h.running, _, rfl, rfl⟩

/-- Settles O19: the acceptance leads to a frame with 65536 COPYs to go, and such a frame ends. -/
theorem frameRunsExactly65536Copies : Obligations.FrameRunsExactly65536Copies := by
  intro s keys rest hR hp
  obtain ⟨u, hstart, rfl, hat⟩ := step_of_stepFrame_frameAt hR hp
  obtain ⟨n, t, hrun⟩ := hat.exists_frameRun (d := 65536) rfl
  obtain ⟨hframe, hend⟩ : t.frame = none ∧
      ((n + 1 = 65537 ∧ t.status = .running ∧ t.result = some .frameDone) ∨
       (2 ≤ n + 1 ∧ n + 1 ≤ 65537 ∧ t.status = .faulted ∧ t.result = some (.failed .addressOutOfRange))) := by
    rcases hrun.ended with ⟨hn, hframe, hshown⟩ | ⟨hpos, hn, hframe, hshown⟩
    · exact ⟨hframe, .inl ⟨by omega, hshown⟩⟩
    · exact ⟨hframe, .inr ⟨by omega, by omega, hshown⟩⟩
  refine ⟨n + 1, t, (run_succ_of_next n hstart).trans hrun.reaches, hframe, hrun.pending, hend, fun m hm hmn => ?_⟩
  obtain ⟨m, rfl⟩ := Nat.exists_eq_add_of_le' hm
  obtain ⟨v, hv, hr, f, hf, hi⟩ := hrun.counts m (by omega)
  exact ⟨v, f, (run_succ_of_next m hstart).trans hv, hf, by omega, hr⟩

/-! ## The machine before another host -/

/-- The same machine before another host: another place in the command grammar, other commands to come, another count of draws. -/
def State.withHost (s : State) (g : Stage) (p : List Command) (d : Nat) : State :=
  { s with stage := g, pending := p, draws := d }

/-- The end of an iteration does not see the host (R90). -/
theorem State.endIteration_withHost (s : State) (g : Stage) (p : List Command) (d : Nat) :
    (s.withHost g p d).endIteration = s.endIteration.withHost g p d := by
  rcases hf : s.frame with _ | f
  · rw [State.endIteration_of_none s hf, State.endIteration_of_none (s.withHost g p d) hf]
  · by_cases hi : f.iter.val + 1 < Config.stepsPerFrame
    · rw [State.endIteration_of_more s hf hi, State.endIteration_of_more (s.withHost g p d) hf hi]
      rfl
    · rw [State.endIteration_of_last s hf hi, State.endIteration_of_last (s.withHost g p d) hf hi]
      rfl

/-- A step inside a frame does not see the host: each row of R71's table is decided by memory, pc and CAPACITY (R90). -/
theorem step_withHost_of_frame {s : State} {f : Frame} (hf : s.frame = some f) (g : Stage) (p : List Command) (d : Nat) :
    step (s.withHost g p d) = mapNext (·.withHost g p d) (step s) := by
  rcases step_of_frame_cases hf with ⟨hs, hfault⟩ | ⟨h5, hS, h8, hs⟩ | ⟨h8, hS, hs⟩ <;> rw [hs]
  · exact step_of_early_fault (s := s.withHost g p d) hf hfault
  · exact step_of_next_fault (s := s.withHost g p d) hf h5 hS h8
  · rw [step_of_completes (s := s.withHost g p d) hf ⟨h8, hS⟩, mapNext, ← State.endIteration_withHost]
    rfl

/-- A step inside a frame leaves the host as it is, since it commutes with putting the same host back (R90). -/
theorem eq_withHost_of_frame_step {s t : State} {f : Frame} (hf : s.frame = some f) (h : step s = .next t) :
    t = t.withHost s.stage s.pending s.draws := by
  have hself := step_withHost_of_frame hf s.stage s.pending s.draws
  rw [h] at hself
  exact Host.Outcome.next.inj (h.symm.trans hself)

/-- Settles O21: the frame's step commutes with another list of commands, and it keeps stage, commands and draws. -/
theorem runningFrameIgnoresTheHost : Obligations.RunningFrameIgnoresTheHost := by
  intro s cmds hframe
  obtain ⟨f, hf⟩ := Option.ne_none_iff_exists'.1 hframe
  refine ⟨?_, fun t h => (congrArg State.pending (eq_withHost_of_frame_step hf h) :)⟩
  have hs := step_of_frame s hf
  calc step { s with pending := cmds }
      = mapNext (·.withHost s.stage cmds s.draws) (step s) := step_withHost_of_frame hf _ _ _
    _ = mapNext (fun t => { t with pending := cmds }) (step s) := by
        rw [hs, mapNext, mapNext, eq_withHost_of_frame_step hf hs]
        rfl

/-! ## The same memory and keys -/

/-- Two states that hold the same machine before the same commands, none a LOAD_ROM, both after a RESET: they differ at most in the
stage and the draws, which no command but LOAD_ROM reads then (R88). -/
inductive State.SameMachine : State → State → Prop
  | mk (s : State) {g₁ g₂ : Stage} {p : List Command} (d₁ d₂ : Nat) (h₁ : g₁ ≠ .beforeReset) (h₂ : g₂ ≠ .beforeReset)
    (hrom : ∀ c ∈ p, ∀ rom, c ≠ .loadRom rom) : SameMachine (s.withHost g₁ p d₁) (s.withHost g₂ p d₂)

/-- Two outcomes alike: next states that hold the same machine, or the same refusal. -/
def SameOutcome (o₁ o₂ : Host.Outcome State Fault Refusal) : Prop :=
  (∃ t₁ t₂, o₁ = .next t₁ ∧ o₂ = .next t₂ ∧ t₁.SameMachine t₂) ∨ ∃ r, o₁ = .refused r ∧ o₂ = .refused r

/-- The start of a frame does not see the host. -/
theorem State.doStepFrame_withHost (keys : KeyMask) (s : State) (g : Stage) (p : List Command) (d : Nat) :
    (s.withHost g p d).doStepFrame keys = (s.doStepFrame keys).withHost g p d := by
  rw [State.doStepFrame_eq, State.doStepFrame_eq]
  rfl

/-- DECODE_FRAME does not see the host (R105). -/
theorem State.doDecodeFrame_withHost (s : State) (g : Stage) (p : List Command) (d : Nat) :
    (s.withHost g p d).doDecodeFrame = s.doDecodeFrame.withHost g p d := by
  by_cases h : s.cap < pageBase s.pageSel.toNat + Config.pageBytes
  · rw [State.doDecodeFrame_error s h, State.doDecodeFrame_error (s.withHost g p d) h]
    rfl
  · rw [State.doDecodeFrame_ok s (Nat.not_lt.1 h), State.doDecodeFrame_ok (s.withHost g p d) (Nat.not_lt.1 h)]
    rfl

section Issue
variable (s : State) {g₁ g₂ : Stage} {p : List Command} (d₁ d₂ : Nat) (h₁ : g₁ ≠ .beforeReset) (h₂ : g₂ ≠ .beforeReset)
  (hrom : ∀ c ∈ p, ∀ rom, c ≠ .loadRom rom)
include h₁ h₂ hrom

/-- A frame command whose effect `F` does not see the host is accepted alike by the same machine, or refused alike (R124). -/
theorem State.sameOutcome_whenRunning {F : State → State}
    (hF : ∀ s g p d, F (State.withHost s g p d) = (F s).withHost g p d) :
    SameOutcome ((s.withHost g₁ p d₁).whenRunning (.next (F (s.withHost g₁ p d₁).closeRom)))
      ((s.withHost g₂ p d₂).whenRunning (.next (F (s.withHost g₂ p d₂).closeRom))) := by
  have hclosed : Stage.romClosed ≠ .beforeReset := nofun
  rcases hs : s.status
  case running =>
    refine .inl ⟨_, _, State.whenRunning_ready _ _ h₁ hs, State.whenRunning_ready _ _ h₂ hs, ?_⟩
    have hclose (g : Stage) (d : Nat) : F (s.withHost g p d).closeRom = (F s).withHost .romClosed p d :=
      hF s .romClosed p d
    rw [hclose, hclose]
    exact .mk (F s) d₁ d₂ hclosed hclosed hrom
  case faulted =>
    exact .inr ⟨_, State.whenRunning_faulted _ _ h₁ hs, State.whenRunning_faulted _ _ h₂ hs⟩

/-- A command other than LOAD_ROM is answered alike by the same machine (R88). -/
theorem State.sameOutcome_issue {c : Command} (hc : ∀ rom, c ≠ .loadRom rom) :
    SameOutcome (State.issue c (s.withHost g₁ p d₁)) (State.issue c (s.withHost g₂ p d₂)) := by
  cases c with
  | reset => exact .inl ⟨_, _, rfl, rfl, .mk s.doReset d₁ d₂ (g₁ := .awaitingRom) (g₂ := .awaitingRom) nofun nofun hrom⟩
  | loadRom rom => exact absurd rfl (hc rom)
  | stepFrame keys => exact s.sameOutcome_whenRunning d₁ d₂ h₁ h₂ hrom (State.doStepFrame_withHost keys)
  | decodeFrame => exact s.sameOutcome_whenRunning d₁ d₂ h₁ h₂ hrom State.doDecodeFrame_withHost

end Issue

/-- One step keeps the same machine the same: a COPY, nothing, or a command other than LOAD_ROM (R88). -/
theorem State.SameMachine.step {s₁ s₂ : State} (h : s₁.SameMachine s₂) : SameOutcome (step s₁) (step s₂) := by
  obtain @⟨s, g₁, g₂, p, d₁, d₂, h₁, h₂, hrom⟩ := h
  rcases hf : s.frame with _ | f
  · rcases p with _ | ⟨c, rest⟩
    · exact .inl ⟨_, _, step_of_no_command _ hf rfl, step_of_no_command _ hf rfl, .mk s d₁ d₂ h₁ h₂ hrom⟩
    · obtain ⟨hc, hrest⟩ := List.forall_mem_cons.1 hrom
      rw [step_of_command (s.withHost g₁ (c :: rest) d₁) hf rfl, step_of_command (s.withHost g₂ (c :: rest) d₂) hf rfl]
      exact s.sameOutcome_issue d₁ d₂ h₁ h₂ hrest hc
  · rw [step_withHost_of_frame hf, step_withHost_of_frame hf, step_of_frame s hf]
    exact .inl ⟨_, _, rfl, rfl, .mk _ d₁ d₂ h₁ h₂ hrom⟩

/-- Every run keeps the same machine the same, by induction on the number of steps (R88). -/
theorem State.SameMachine.run {s₁ s₂ : State} (h : s₁.SameMachine s₂) (n : Nat) : SameOutcome (run n s₁) (run n s₂) := by
  induction n generalizing s₁ s₂ with
  | zero => exact .inl ⟨s₁, s₂, run_zero s₁, run_zero s₂, h⟩
  | succ n ih =>
    rcases h.step with ⟨t₁, t₂, hs₁, hs₂, ht⟩ | ⟨r, hs₁, hs₂⟩
    · rw [run_succ_of_next n hs₁, run_succ_of_next n hs₂]
      exact ih ht
    · exact .inr ⟨r, run_succ_of_refused n hs₁, run_succ_of_refused n hs₂⟩

/-- Ready machines with equal memory, CAPACITY and result are the same machine. -/
theorem State.Ready.eq_withHost {s t : State} (hs : s.Ready) (ht : t.Ready) (hcap : s.capacity = t.capacity)
    (hmem : s.mem = t.mem) (hresult : s.result = t.result) : t = s.withHost t.stage t.pending t.draws := by
  rw [State.withHost, hcap, hmem, hresult, hs.running, hs.idle, ← ht.running, ← ht.idle]

/-- Settles O20: the two machines are the same before the same commands, and every run keeps them so. -/
theorem sameMemoryAndKeysSameResults : Obligations.SameMemoryAndKeysSameResults := by
  intro s₁ s₂ cmds n hR₁ hR₂ hcap hmem hresult hrom hp₁ hp₂
  have hsame : s₁.SameMachine s₂ := by
    rw [hR₁.eq_withHost hR₂ hcap hmem hresult, hp₂, ← hp₁]
    exact .mk s₁ s₁.draws s₂.draws hR₁.created hR₂.created (hp₁ ▸ hrom)
  rcases hsame.run n with ⟨t₁, t₂, hn₁, hn₂, ht⟩ | hrefused
  · cases ht
    exact .inl ⟨_, _, hn₁, hn₂, rfl, rfl, rfl, rfl⟩
  · exact .inr hrefused

end Sys2Proof.Machine
end

section
/-! PROOFS for the statements of spec/43_input_mapper.md: the two bytes WRITE_KEYS stores (R95) and the bit each key lands in (R96). -/

/-! ## The bytes and bits of the key mask -/

namespace Sys2Proof

section KeyMask
variable (keys : KeyMask)

/-- The high key byte is `(keys >> 8) & 0xFF` (R95). -/
theorem KeyMask.highByte_eq : keys.extractLsb' 8 8 = BitVec.ofNat 8 (keys.toNat / 256) :=
  congrArg (BitVec.ofNat 8) (Nat.shiftRight_eq_div_pow keys.toNat 8)

/-- The low key byte is `keys & 0xFF` (R95). -/
theorem KeyMask.lowByte_eq : keys.extractLsb' 0 8 = BitVec.ofNat 8 (keys.toNat % 256) :=
  BitVec.eq_of_toNat_eq (by simp)

/-- Bit `k` of `keys` is bit `k` of the low byte for `k < 8`, and bit `k - 8` of the high byte for `k` from 8 to 15 (R96). -/
theorem KeyMask.getLsbD_bytes {k : Nat} (hk : k < 16) :
    (if k < 8 then (keys.extractLsb' 0 8).getLsbD k else (keys.extractLsb' 8 8).getLsbD (k - 8)) = keys.getLsbD k := by
  split
  case isTrue hlow => simp [hlow]
  case isFalse hhigh => simp [show k - 8 < 8 by omega, show 8 + (k - 8) = k by omega]

/-- Bit `k` is set exactly when `keys` and the mask `2^k` have a bit in common (R96). -/
theorem KeyMask.getLsbD_iff_and_twoPow {k : Nat} (hk : k < 16) :
    keys.getLsbD k = true ↔ keys &&& BitVec.twoPow 16 k ≠ 0 := by
  have hmask : BitVec.twoPow 16 k ≠ 0 := fun h => by
    simpa [BitVec.getLsbD_twoPow, hk] using congrArg (·.getLsbD k) h
  rw [BitVec.and_twoPow]
  split
  case isTrue hbit => exact iff_of_true hbit hmask
  case isFalse hbit => exact iff_of_false hbit (not_not_intro rfl)

end KeyMask

end Sys2Proof

namespace Sys2Proof.Machine

/-! ## The two writes -/

/-- Writes to two addresses give the same reads in either order (R95). -/
theorem Memory.read_write_comm (m : Memory) {a b : Nat} (hab : a ≠ b) (v w : Byte) (c : Nat) :
    ((m.write a v).write b w).read c = ((m.write b w).write a v).read c := by
  simp only [Memory.read_write]
  by_cases hc : c = a
  · simp [hc, hab]
  · simp [hc]

/-- `MemRead(0, 2)` is the field KEYS, with nothing dropped (R16, R95). -/
theorem State.memRead_keys (s : State) : s.memRead 0 2 = .ok s.keysField.toNat := by
  have hcap := s.eight_lt_cap
  have hfits := foldBytes_lt [s.mem.read 0, s.mem.read 1]
  have hread : s.memRead 0 2 = .ok (foldBytes [s.mem.read 0, s.mem.read 1]) := s.memRead_ok (by omega)
  rw [hread, State.keysField, BitVec.toNat_ofNat]
  exact congrArg Except.ok (Nat.mod_eq_of_lt hfits).symm

/-- Settles O23: the two cells hold the bytes of `keys`, so KEYS does, and writes to different cells commute. -/
theorem writeKeysStoresBothBytes : Obligations.WriteKeysStoresBothBytes := by
  intro s keys
  have hcap := s.eight_lt_cap
  obtain ⟨hhigh, hlow⟩ := s.mem.read_keys (keys.extractLsb' 8 8) (keys.extractLsb' 0 8)
  refine ⟨_, s.writeKeys_ok keys, rfl, hhigh.trans keys.highByte_eq, hlow.trans keys.lowByte_eq,
    fun _ => s.mem.read_keys_of_two_le _ _, ?_, ?_⟩
  · rw [State.memRead_keys, State.keysField_of_bytes hhigh hlow]
  · rw [← KeyMask.highByte_eq, ← KeyMask.lowByte_eq]
    exact ⟨_, _, s.memWrite_ok (by omega) _, State.memWrite_ok { s with mem := s.mem.write 1 _ } (show 0 < s.cap by omega) _,
      s.mem.read_write_comm (by decide) _ _⟩

/-! ## The key table -/

/-- Settles O24: the cells hold the bytes of `keys`, whose bits are those of `keys`. -/
theorem eachKeyLandsInItsBit : Obligations.EachKeyLandsInItsBit := by
  intro s t keys k hk hwrite
  obtain ⟨hhigh, hlow⟩ := s.mem.read_keys (keys.extractLsb' 8 8) (keys.extractLsb' 0 8)
  obtain rfl := Except.ok.inj ((s.writeKeys_ok keys).symm.trans hwrite)
  rw [hhigh, hlow]
  exact ⟨keys.getLsbD_bytes hk, keys.getLsbD_iff_and_twoPow hk⟩

end Sys2Proof.Machine
end

section
/-! PROOFS for the statements of spec/44_display_decoder.md: DECODE_FRAME and its page check (R100, R102, R105), the palette (R103),
and the pixel's address (R101, R104). -/

namespace Sys2Proof.Machine

/-! ## DECODE_FRAME -/

/-- The pixel of linear index `i` is the colour of the byte at `base + i` (R100 step 4). -/
theorem State.pagePixels_getElem? (s : State) {i : Nat} (h : i < 65536) :
    s.pagePixels[i]? = some (palette (s.mem.read (pageBase s.pageSel.toNat + i))) := by
  rw [State.pagePixels, List.getElem?_map, List.getElem?_range h, Option.map_some]

/-- Settles O28: the page check passes, so the result is the page's pixels and only the host's side of the state moves on. -/
theorem decodeFrameReturnsThePage : Obligations.DecodeFrameReturnsThePage := by
  intro s rest hready hpending hpage
  rw [← pageBase_eq] at hpage ⊢
  exact ⟨_, _, step_of_decodeFrame_ok hready hpending hpage, rfl, s.pagePixels_length,
    fun _ => s.pagePixels_getElem?, rfl, hready.running, hready.idle, rfl, rfl⟩

/-- The one page that can run past the end of memory is 0xFF at CAPACITY = 0xFFFFFF (R102). -/
theorem State.cap_lt_page_end_iff (s : State) :
    s.cap < s.pageSel.toNat * 65536 + 65536 ↔ s.capacity = .short ∧ s.pageSel = 0xFF := by
  have hsel := s.pageSel.isLt
  have hlast : s.pageSel = 0xFF ↔ s.pageSel.toNat = 0xFF := BitVec.toNat_inj.symm
  rw [State.cap, hlast]
  cases s.capacity with
  | short => simp only [Config.Capacity.bytes, true_and]; omega
  | full => simp only [Config.Capacity.bytes, reduceCtorEq, false_and, iff_false]; omega

/-- Settles O29: the check of the whole page fails or passes before any pixel is produced, and only page 0xFF can fail it. -/
theorem decodeFrameChecksThePage : Obligations.DecodeFrameChecksThePage := by
  refine ⟨fun s rest hready hpending => ?_, State.cap_lt_page_end_iff⟩
  rw [← pageBase_eq]
  by_cases hpage : s.cap < pageBase s.pageSel.toNat + 65536
  · exact ⟨_, step_of_decodeFrame_error hready hpending hpage, rfl, fun _ => ⟨rfl, rfl⟩, (absurd hpage ·)⟩
  · exact ⟨_, step_of_decodeFrame_ok hready hpending (Nat.not_lt.1 hpage), rfl, (absurd · hpage),
      fun _ => ⟨hready.running, _, rfl⟩⟩

/-- What DECODE_FRAME gives the host: the error of the page check, or the page's pixels (R100, R102). -/
def State.decodeResult (s : State) : CommandResult :=
  if s.cap < pageBase s.pageSel.toNat + 65536 then .failed .addressOutOfRange else .pixelBuffer s.pagePixels

/-- That result is read off `M` and CAPACITY alone (R105). -/
theorem State.decodeResult_congr {s₁ s₂ : State} (hmem : s₁.mem = s₂.mem) (hcap : s₁.capacity = s₂.capacity) :
    s₁.decodeResult = s₂.decodeResult := by
  have hpixels : s₁.pagePixels = s₂.pagePixels := by simp only [State.pagePixels, State.pageSel, hmem]
  rw [State.decodeResult, State.decodeResult, hpixels, State.pageSel, State.pageSel, State.cap, State.cap, hmem, hcap]

/-- Whether the page check passes or fails, DECODE_FRAME gives its result and leaves memory and CAPACITY as they are (R105). -/
theorem step_of_decodeFrame_result {s : State} {rest : List Command} (h : s.Ready)
    (hp : s.pending = .decodeFrame :: rest) :
    ∃ t, step s = .next t ∧ t.result = some s.decodeResult ∧ t.mem = s.mem ∧ t.capacity = s.capacity ∧
      t.pending = rest ∧ t.frame = none ∧ t.stage = .romClosed := by
  unfold State.decodeResult
  by_cases hpage : s.cap < pageBase s.pageSel.toNat + 65536
  · rw [if_pos hpage]
    exact ⟨_, step_of_decodeFrame_error h hp hpage, rfl, rfl, rfl, rfl, rfl, rfl⟩
  · rw [if_neg hpage]
    exact ⟨_, step_of_decodeFrame_ok h hp (Nat.not_lt.1 hpage), rfl, rfl, rfl, rfl, h.idle, rfl⟩

/-- Settles O32: the result is a function of `M` and CAPACITY, which a first DECODE_FRAME leaves for a second one to read. -/
theorem decodeFrameIsAPureRead : Obligations.DecodeFrameIsAPureRead := by
  constructor
  · intro s₁ s₂ rest₁ rest₂ hready₁ hready₂ hmem hcap hp₁ hp₂
    obtain ⟨t₁, hstep₁, hres₁, hmem₁, -⟩ := step_of_decodeFrame_result hready₁ hp₁
    obtain ⟨t₂, hstep₂, hres₂, hmem₂, -⟩ := step_of_decodeFrame_result hready₂ hp₂
    refine ⟨t₁, t₂, hstep₁, hstep₂, ?_, hmem₁, hmem₂⟩
    rw [hres₁, hres₂, State.decodeResult_congr hmem hcap]
  · intro s t rest hready hp hstep hrunning
    obtain ⟨t', hstep', hres, hmem, hcap, hpending, hidle, hstage⟩ := step_of_decodeFrame_result hready hp
    obtain rfl := Host.Outcome.next.inj (hstep'.symm.trans hstep)
    have hready' : t'.Ready := ⟨hidle, hrunning, by rw [hstage]; decide⟩
    obtain ⟨u, hstepu, hresu, hmemu, -⟩ := step_of_decodeFrame_result hready' hpending
    refine ⟨u, hstepu, ?_, hmemu.trans hmem⟩
    rw [hresu, hres, State.decodeResult_congr hmem hcap]

/-! ## The palette -/

/-- A number below 216 is its three base-6 digits put together (R103). -/
theorem eq_base_six_digits {n : Nat} (h : n < 216) : n = 36 * (n / 36 % 6) + 6 * (n / 6 % 6) + n % 6 := by
  omega

/-- A digit times 51 fits a byte, with no wrap (R107). -/
theorem toNat_ofNat_digit_mul (n : Nat) : (BitVec.ofNat 8 (n % 6 * 51)).toNat = n % 6 * 51 := by
  rw [BitVec.toNat_ofNat]
  omega

/-- The components of a colour are the digits of its index times 51 (R103). -/
theorem palette_components {c : Byte} (h : c.toNat < 216) :
    (palette c).red.toNat = c.toNat / 36 % 6 * 51 ∧ (palette c).green.toNat = c.toNat / 6 % 6 * 51 ∧
      (palette c).blue.toNat = c.toNat % 6 * 51 := by
  rw [palette, if_pos h]
  exact ⟨toNat_ofNat_digit_mul _, toNat_ofNat_digit_mul _, toNat_ofNat_digit_mul _⟩

/-- The indices from 216 on are black (R103). -/
theorem palette_black {c : Byte} (h : 216 ≤ c.toNat) : palette c = { red := 0, green := 0, blue := 0 } :=
  if_neg (Nat.not_lt.2 h)

/-- Below 216 the colour determines the digits, and they determine the index (R103). -/
theorem palette_injective {c d : Byte} (hc : c.toNat < 216) (hd : d.toNat < 216) (h : palette c = palette d) :
    c = d := by
  obtain ⟨hred, hgreen, hblue⟩ := palette_components hc
  obtain ⟨hred', hgreen', hblue'⟩ := palette_components hd
  rw [h] at hred hgreen hblue
  apply BitVec.eq_of_toNat_eq
  rw [eq_base_six_digits hc, eq_base_six_digits hd]
  omega

/-- Settles O30: the digits are those of the index, and each component is one of them times 51. -/
theorem paletteIsTheColourCube : Obligations.PaletteIsTheColourCube := by
  refine ⟨fun c hc => ?_, fun _ => palette_black, fun _ _ => palette_injective⟩
  have hdigit (n : Nat) : n % 6 < 6 := Nat.mod_lt n (by decide)
  exact ⟨_, _, _, hdigit _, hdigit _, hdigit _, eq_base_six_digits hc, rfl, rfl, rfl, palette_components hc⟩

/-! ## The pixel's address -/

/-- Bits put in front of `n` others are their value times `2^n`. -/
theorem toNat_append_eq_add {m n : Nat} (x : BitVec m) (y : BitVec n) :
    (x ++ y).toNat = x.toNat * 2 ^ n + y.toNat := by
  rw [BitVec.toNat_append, ← Nat.shiftLeft_add_eq_or_of_lt y.isLt, Nat.shiftLeft_eq]

/-- Rows and columns are the two base-256 digits of the linear index (R104). -/
theorem pixel_row_column {i : Nat} (h : i < 65536) :
    pixelColumn i < 256 ∧ pixelRow i < 256 ∧ i = 256 * pixelRow i + pixelColumn i := by
  simp only [pixelColumn, pixelRow, Config.fbWidth]
  omega

/-- The top byte of an address is the number of its page (R101). -/
theorem addr_topByte_eq_iff (sel : Byte) (a : Addr) : a.extractLsb' 16 8 = sel ↔ a.toNat / 65536 = sel.toNat := by
  have ha := a.isLt
  rw [← BitVec.toNat_inj, BitVec.extractLsb'_toNat, Nat.shiftRight_eq_div_pow]
  omega

/-- Settles O31: row and column are the low bytes of the address, and the page's number its top byte. -/
theorem pixelAddressIsPageRowColumn : Obligations.PixelAddressIsPageRowColumn := by
  refine ⟨fun sel i hi => ?_, fun sel a => ?_⟩
  · obtain ⟨hcolumn, hrow, hindex⟩ := pixel_row_column hi
    refine ⟨hcolumn, hrow, hindex, ?_⟩
    rw [toNat_append_eq_add, toNat_append_eq_add, BitVec.toNat_ofNat, BitVec.toNat_ofNat, Nat.mod_eq_of_lt hrow,
      Nat.mod_eq_of_lt hcolumn, pageBase_eq]
    omega
  · rw [addr_topByte_eq_iff, pageBase_eq]
    constructor
    · intro h
      exact ⟨a.toNat % 65536, Nat.mod_lt _ (by decide), by omega⟩
    · rintro ⟨i, hi, ha⟩
      omega

end Sys2Proof.Machine
end

section
/-! PROOFS for the statements of spec/60_exceptions.md: where each error is raised (R116, R117), and FAULTED, which RESET alone leaves
(R20, R124). -/

namespace Sys2Proof.Machine

/-! ## Where an error is raised -/

/-- The four sub-steps of the COPY at `f.pc` at which an address can be out of range: its source field, its target field, its source
byte and its next field (R71). -/
def State.CopyOutOfRange (s : State) (f : Frame) : Prop :=
  s.cap ≤ f.pc.toNat + 2 ∨ s.cap ≤ f.pc.toNat + 5 ∨ s.cap ≤ (sourceFieldIn s.mem f.pc).toNat ∨ s.cap ≤ f.pc.toNat + 8

/-- The next step raises `e`: a COPY or a DECODE_FRAME out of range (R116), or a LOAD_ROM of too large an image (R117). -/
def State.Raises (s : State) : Fault → Prop
  | .addressOutOfRange =>
    (∃ f, s.frame = some f ∧ s.CopyOutOfRange f) ∨
    (s.frame = none ∧ ∃ rest, s.pending = .decodeFrame :: rest ∧ s.cap < s.pageSel.toNat * 65536 + 65536)
  | .romTooLarge => ∃ rom rest, s.frame = none ∧ s.pending = .loadRom rom :: rest ∧ s.cap < rom.length

/-- Inside a frame only a COPY out of range raises an error (R116, R117). -/
theorem State.raises_iff_of_frame {s : State} {f : Frame} (hf : s.frame = some f) (e : Fault) :
    s.Raises e ↔ e = .addressOutOfRange ∧ s.CopyOutOfRange f := by
  cases e <;> simp [State.Raises, hf]

/-- An idle machine without a command raises nothing (R44). -/
theorem State.not_raises_of_no_command {s : State} (hf : s.frame = none) (hp : s.pending = []) (e : Fault) :
    ¬ s.Raises e := by
  cases e <;> simp [State.Raises, hf, hp]

/-- A command raises RomTooLarge if it is a LOAD_ROM of too large an image, AddressOutOfRange if it is a DECODE_FRAME of a page out of
range, and nothing else (R116, R117). -/
theorem State.raises_iff_of_command {s : State} {c : Command} {rest : List Command} (hf : s.frame = none)
    (hp : s.pending = c :: rest) (e : Fault) :
    s.Raises e ↔ (e = .romTooLarge ∧ ∃ rom, c = .loadRom rom ∧ s.cap < rom.length) ∨
      (e = .addressOutOfRange ∧ c = .decodeFrame ∧ s.cap < s.pageSel.toNat * 65536 + 65536) := by
  cases e <;> simp [State.Raises, hf, hp]

/-- Two results that are errors are equal when the errors are. -/
theorem some_failed_eq_iff {e e' : Fault} : some (CommandResult.failed e') = some (.failed e) ↔ e = e' := by
  rw [Option.some.injEq, CommandResult.failed.injEq, eq_comm]

/-- A COPY that completes gives the host no error: no result while the frame goes on, `Ok(())` at its end (R85, R86). -/
theorem State.endIteration_afterCopy_not_failed {s : State} (hn : s.result = none) (f : Frame) (e : Fault) :
    (s.afterCopy f).endIteration.result ≠ some (.failed e) := by
  rcases s.endIteration_afterCopy_cases f with ⟨ht, _⟩ | ⟨_, ht⟩ <;> rw [ht]
  · nofun
  · exact fun he => nomatch hn.symm.trans he

/-- The error after a step in a frame is that of a COPY out of range (R116). -/
theorem step_of_frame_failed_iff {s t : State} {f : Frame} (hf : s.frame = some f) (hn : s.result = none)
    (h : step s = .next t) (e : Fault) :
    t.result = some (.failed e) ↔ e = .addressOutOfRange ∧ s.CopyOutOfRange f := by
  unfold State.CopyOutOfRange
  rcases step_of_frame_cases hf with ⟨ht, hout⟩ | ⟨_, _, h8, ht⟩ | ⟨h8, hS, ht⟩ <;> cases h.symm.trans ht
  · rw [State.raise_result, some_failed_eq_iff, iff_self_and]
    omega
  · rw [State.raise_result, some_failed_eq_iff, iff_self_and]
    omega
  · refine iff_of_false (State.endIteration_afterCopy_not_failed hn f e) fun ⟨_, hout⟩ => ?_
    omega

/-- The error after a step is the one the step raised, or the one that an idle machine without a command already showed. A running
frame has no result (R20, R57, R116, R117). -/
theorem step_failed_iff {s t : State} (hn : s.frame ≠ none → s.result = none) (h : step s = .next t) (e : Fault) :
    t.result = some (.failed e) ↔
      s.Raises e ∨ (s.frame = none ∧ s.pending = [] ∧ s.result = some (.failed e)) := by
  rcases step_next_states h with ⟨f, hf, _⟩ | ⟨hf, hp, rfl⟩ | ⟨_, hf, hp, rfl⟩ | ⟨_, _, hR, _, hp, hfits, rfl⟩ |
    ⟨_, _, hR, _, hp, hlarge, rfl⟩ | ⟨_, _, hR, hp, rfl⟩ | ⟨_, hR, hp, hout, rfl⟩ | ⟨_, hR, hp, hin, rfl⟩
  · rw [step_of_frame_failed_iff hf (hn (by simp [hf])) h, State.raises_iff_of_frame hf]
    simp [hf]
  · simp [State.not_raises_of_no_command hf hp, hf, hp]
  · simp [State.raises_iff_of_command hf hp, hp]
  · simp [State.raises_iff_of_command hR.idle hp, hp, hfits]
  · rw [some_failed_eq_iff, State.raises_iff_of_command hR.idle hp]
    simp [hp, hlarge]
  · simp [State.raises_iff_of_command hR.idle hp, hp]
  · rw [pageBase_eq] at hout
    rw [some_failed_eq_iff, State.raises_iff_of_command hR.idle hp]
    simp [hp, hout]
  · rw [pageBase_eq] at hin
    simp [State.raises_iff_of_command hR.idle hp, hp, hin]

/-- The invariant leaves a running frame without a result (R57, R85). -/
theorem State.Inv.result_of_frame {s : State} (hI : s.Inv) (hf : s.frame ≠ none) : s.result = none := by
  obtain ⟨_, _, hn⟩ := hI.frameRuns hf
  exact hn

/-- Settles O27: RomTooLarge after a step was raised by it, so by a LOAD_ROM of too large an image, or the step did nothing. -/
theorem romTooLargeOnlyFromLoadRom : Obligations.RomTooLargeOnlyFromLoadRom := by
  refine ⟨fun s t hI h hres => ?_, fun s t rom rest hf hp h => ?_⟩
  · rcases (step_failed_iff hI.result_of_frame h _).1 hres with hraises | ⟨hf, hp, _⟩
    · exact .inl hraises
    · exact .inr ⟨hf, hp, Host.Outcome.next.inj (h.symm.trans (step_of_no_command s hf hp))⟩
  · rw [step_failed_iff (absurd hf) h, State.raises_iff_of_command hf hp]
    simp [hp]

/-- Settles O33: AddressOutOfRange after a step that did not find it was raised by that step, and no address is out of range at
CAPACITY = 0x1000000. -/
theorem addressOutOfRangeExactlyWhere : Obligations.AddressOutOfRangeExactlyWhere := by
  refine ⟨fun s t hI h hfresh => ?_, fun s S hfull => ⟨?_, ?_⟩⟩
  · exact (step_failed_iff hI.result_of_frame h .addressOutOfRange).trans
      (or_iff_left fun ⟨_, _, hres⟩ => hfresh hres)
  · exact Nat.not_le.1 (by simp [State.cap_le_addr_iff, hfull])
  · exact Nat.not_lt.1 (by simp [State.cap_lt_page_end_iff, hfull])

/-! ## FAULTED -/

/-- No frame runs in FAULTED (R20, R122). -/
theorem State.Inv.idle_of_faulted {s : State} (hI : s.Inv) (h : s.status = .faulted) : s.frame = none := by
  by_contra hf
  obtain ⟨hr, _⟩ := hI.frameRuns hf
  exact nomatch h.symm.trans hr

/-- A FAULTED machine has been RESET before: it shows the error of a command (R122, R135). -/
theorem State.Inv.created_of_faulted {s : State} (hI : s.Inv) (h : s.status = .faulted) : s.stage ≠ .beforeReset := by
  obtain ⟨e, he⟩ := hI.faultShown.1 h
  exact fun hs => nomatch he.symm.trans (hI.beforeReset hs)

/-- Every command but RESET is refused in FAULTED, each by the same check (R124). -/
theorem State.issue_of_faulted {s : State} {c : Command} (hs : s.stage ≠ .beforeReset) (h : s.status = .faulted)
    (hc : c ≠ .reset) : s.issue c = .refused .commandInFaulted := by
  cases c with
  | reset => exact absurd rfl hc
  | loadRom rom => exact s.whenRunning_faulted _ hs h
  | stepFrame keys => exact s.whenRunning_faulted _ hs h
  | decodeFrame => exact s.whenRunning_faulted _ hs h

/-- Settles O34: a COPY and every command but RESET need RUNNING, and in FAULTED the machine is idle and past its first RESET. -/
theorem onlyResetLeavesFaulted : Obligations.OnlyResetLeavesFaulted := by
  refine ⟨fun s t hI hs h => ?_, fun s c rest hI hs hp hc => ?_⟩
  · rcases step_next_cases h with ⟨f, hf, _⟩ | ⟨_, hp, rfl⟩ | ⟨_, c, rest, hp, ⟨rfl, rfl⟩ | ⟨_, hr, _⟩⟩
    · exact nomatch hf.symm.trans (hI.idle_of_faulted hs)
    · exact .inl ⟨hp, rfl⟩
    · exact .inr ⟨rest, hp, rfl⟩
    · exact nomatch hs.symm.trans hr
  · rw [step_of_command s (hI.idle_of_faulted hs) hp]
    exact State.issue_of_faulted (hI.created_of_faulted hs) hs hc

end Sys2Proof.Machine
end

section
/-! PROOFS for the statements of spec/70_reset_and_hazards.md: the order of the host's commands, which of them are refused (R67, R124,
R135), and how an accepted one moves the grammar on (R137, R57). -/

namespace Sys2Proof.Machine

/-! ## Refused commands -/

/-- The order of commands in which an idle core refuses the next one, by the refusal's name: any but RESET before the first RESET
(R135), any but RESET in FAULTED (R124), a LOAD_ROM not straight after RESET (R67). Nothing else is refused. -/
def State.Refuses (s : State) : Refusal → Prop
  | .commandBeforeReset => s.frame = none ∧ s.stage = .beforeReset ∧ ∃ c rest, s.pending = c :: rest ∧ c ≠ .reset
  | .commandInFaulted =>
    s.frame = none ∧ s.stage ≠ .beforeReset ∧ s.status = .faulted ∧ ∃ c rest, s.pending = c :: rest ∧ c ≠ .reset
  | .romLoadClosed =>
    s.frame = none ∧ s.stage = .romClosed ∧ s.status = .running ∧ ∃ rom rest, s.pending = .loadRom rom :: rest
  | .notModelled _ | .copyOutsideFrame => False

/-- Before the first RESET every other command is refused, each by the same check (R135). -/
theorem State.issue_of_beforeReset {s : State} {c : Command} (hs : s.stage = .beforeReset) (hc : c ≠ .reset) :
    s.issue c = .refused .commandBeforeReset := by
  cases c with
  | reset => exact absurd rfl hc
  | loadRom rom => exact s.whenRunning_beforeReset _ hs
  | stepFrame keys => exact s.whenRunning_beforeReset _ hs
  | decodeFrame => exact s.whenRunning_beforeReset _ hs

/-- After another LOAD_ROM or a frame command, LOAD_ROM is refused (R67, R137). -/
theorem State.issue_loadRom_of_romClosed {s : State} (rom : List Byte) (hs : s.stage = .romClosed)
    (hr : s.status = .running) : s.issue (.loadRom rom) = .refused .romLoadClosed := by
  rw [State.issue, s.whenRunning_ready _ (by simp [hs]) hr, State.whenAwaitingRom, hs]

/-- The step of a refused command answers its refusal. -/
theorem State.Refuses.step_eq {s : State} {r : Refusal} (h : s.Refuses r) : step s = .refused r := by
  cases r with
  | commandBeforeReset =>
    obtain ⟨hf, hs, c, rest, hp, hc⟩ := h
    rw [step_of_command s hf hp]
    exact State.issue_of_beforeReset hs hc
  | commandInFaulted =>
    obtain ⟨hf, hs, hfaulted, c, rest, hp, hc⟩ := h
    rw [step_of_command s hf hp]
    exact State.issue_of_faulted hs hfaulted hc
  | romLoadClosed =>
    obtain ⟨hf, hs, hr, rom, rest, hp⟩ := h
    rw [step_of_command s hf hp]
    exact State.issue_loadRom_of_romClosed rom hs hr
  | notModelled _ | copyOutsideFrame => exact h.elim

/-- A step goes on or the order of commands is one of those refused: there is no third case (R135, R137). -/
theorem step_next_or_refuses (s : State) : (∃ t, step s = .next t) ∨ ∃ r, s.Refuses r := by
  rcases hf : s.frame with _ | f
  · rcases hp : s.pending with _ | ⟨c, rest⟩
    · exact .inl ⟨s, step_of_no_command s hf hp⟩
    · rw [step_of_command s hf hp]
      rcases State.issue_cases { s with pending := rest } c with ⟨_, h⟩ | ⟨_, _, ⟨_, _, _, h⟩ | ⟨_, _, h⟩ | ⟨_, h⟩⟩ |
        ⟨hc, hs, _⟩ | ⟨hc, hs, hr, _⟩ | ⟨hs, hs', hr, rom, rfl, _⟩
      · exact .inl ⟨_, h⟩
      · exact .inl ⟨_, h⟩
      · exact .inl ⟨_, h⟩
      · exact .inl ⟨_, h⟩
      · exact .inr ⟨.commandBeforeReset, hf, hs, c, rest, hp, hc⟩
      · exact .inr ⟨.commandInFaulted, hf, hs, hr, c, rest, hp, hc⟩
      · have hclosed : s.stage = .romClosed := by
          cases hg : s.stage with
          | beforeReset => exact absurd hg hs
          | awaitingRom => exact absurd hg hs'
          | romClosed => rfl
        exact .inr ⟨.romLoadClosed, hf, hclosed, hr, rom, rest, hp⟩
  · exact .inl ⟨_, step_of_frame s hf⟩

/-- A step is refused exactly in the orders of commands that `Refuses` lists (R135, R124, R67). -/
theorem step_eq_refused_iff (s : State) (r : Refusal) : step s = .refused r ↔ s.Refuses r := by
  refine ⟨fun h => ?_, State.Refuses.step_eq⟩
  rcases step_next_or_refuses s with ⟨t, ht⟩ | ⟨r', hr'⟩
  · exact nomatch h.symm.trans ht
  · cases h.symm.trans hr'.step_eq
    exact hr'

/-- Settles O35: each refusal is answered in its own order of commands, and a step that does not go on has one of the three. -/
theorem refusedExactlyOutsideTheGrammar : Obligations.RefusedExactlyOutsideTheGrammar := by
  refine fun s => ⟨step_eq_refused_iff s .commandBeforeReset, step_eq_refused_iff s .commandInFaulted,
    step_eq_refused_iff s .romLoadClosed, ?_⟩
  rcases step_next_or_refuses s with ht | ⟨r, hr⟩
  · exact .inl ht
  · cases r with
    | commandBeforeReset => exact .inr (.inl hr.step_eq)
    | commandInFaulted => exact .inr (.inr (.inl hr.step_eq))
    | romLoadClosed => exact .inr (.inr (.inr hr.step_eq))
    | notModelled _ | copyOutsideFrame => exact hr.elim

/-! ## Accepted commands -/

/-- Settles O36: the step is that of the command, RESET, LOAD_ROM, STEP_FRAME or DECODE_FRAME, whose next state is written out; all
but STEP_FRAME leave the machine idle. -/
theorem commandsAdvanceTheGrammar : Obligations.CommandsAdvanceTheGrammar := by
  intro s t c rest hf hp h
  rcases step_next_states h with ⟨_, hf', _⟩ | ⟨_, hp', _⟩ | ⟨_, _, hp', rfl⟩ | ⟨_, _, _, _, hp', _, rfl⟩ |
    ⟨_, _, _, _, hp', _, rfl⟩ | ⟨_, _, _, hp', rfl⟩ | ⟨_, _, hp', _, rfl⟩ | ⟨_, _, hp', _, rfl⟩
  · exact nomatch hf.symm.trans hf'
  · exact nomatch hp.symm.trans hp'
  all_goals
    cases hp.symm.trans hp'
    exact ⟨rfl, rfl, by simp, by simp [hf]⟩

end Sys2Proof.Machine
end
